-- ==== Sys2Proof/Word.lean ====
section
/-! DEFINITION. The machine's word types (00_scope.md R5): a bus or command word of `CW = 32` bits and a
value (field element, modulus, scalar, data register) of `W = 256` bits. -/

namespace Sys2Proof

/-- A 32-bit command word or bus data word (R5 `CW`, R90). -/
abbrev Word := BitVec 32

/-- A 256-bit unsigned value (R5 `W`). -/
abbrev Value := BitVec 256

end Sys2Proof
end

