-- ==== Sys2Proof/Config.lean ====
section
/-! DEFINITION. The implementation parameters of 00_scope.md R5 at the values this hardware takes. The spec
leaves no result of an instruction open, so no free value stands here. -/

namespace Sys2Proof.Config

/-- `NF`: how many field registers there are (R5, R21). -/
abbrev numF : Nat := 8

/-- `NP`: how many point registers there are (R5, R22). -/
abbrev numP : Nat := 4

/-- The size of the register window in bytes: `2^AW` words of four bytes (R5 `AW`, R60). -/
def windowBytes : Nat := 0x400

end Sys2Proof.Config
end

