-- ==== Sys2Proof/Syntax.lean ====
section
/-! DEFINITION. The commands of the core, one constructor per row of 30_encoding.md R95, and the fields of a
command word (R91). Register numbers carry their bound (R92: an `F` field is 0 to 7, a `P` field 0 to 3), so
every term of `Instr` is a command the core has. -/

namespace Sys2Proof

/-- A modulus or curve slot (00_scope.md R12): slot 0 is programmable, slot 1 is secp256k1. -/
inductive Slot where
  | prog
  | secp
deriving DecidableEq, Repr

/-- The number of a field register `F0` to `F7` (R21). -/
abbrev FIdx := Fin Config.numF

/-- The number of a point register `P0` to `P3` (R22). -/
abbrev PIdx := Fin Config.numP

/-- The commands, in the order of R95; operands in the order RD, RS1, RS2, modifier (R98). -/
inductive Instr where
  | nop
  | mset
  | cset (rs1 rs2 : FIdx)
  | kldn
  | fcons (rd : FIdx) (sel : Slot)
  | fget (rs1 : FIdx)
  | fadd (rd rs1 rs2 : FIdx)
  | fsub (rd rs1 rs2 : FIdx)
  | fmul (rd rs1 rs2 : FIdx)
  /-- `neg` is the modifier `NEG` (R94): the exponent is `-K` when it is true. -/
  | fpow (rd rs1 : FIdx) (neg : Bool)
  | finv (rd rs1 : FIdx)
  | fdiv (rd rs1 rs2 : FIdx)
  | feq (rs1 rs2 : FIdx)
  | fred (rd : FIdx)
  | pcons (rd : PIdx) (rs1 rs2 : FIdx)
  | pinf (rd : PIdx) (sel : Slot)
  | pldg (rd : PIdx)
  | pgetx (rd : FIdx) (rs1 : PIdx)
  | pgety (rd : FIdx) (rs1 : PIdx)
  | padd (rd rs1 rs2 : PIdx)
  | pdbl (rd rs1 : PIdx)
  | pmul (rd rs1 : PIdx)
  | peq (rs1 rs2 : PIdx)
  | ptest (rs1 : PIdx)
deriving DecidableEq, Repr

/-- The fields of a command word (R91): `OP` 31:24, `RD` 23:20, `RS1` 19:16, `RS2` 15:12, `Z` 11:1, `M` 0. -/
structure CmdFields where
  op  : BitVec 8
  rd  : BitVec 4
  rs1 : BitVec 4
  rs2 : BitVec 4
  z   : BitVec 11
  m   : BitVec 1
deriving DecidableEq, Repr

/-- The mnemonic of a command, as R95 spells it. -/
def Instr.mnemonic : Instr → String
  | .nop => "NOP"
  | .mset => "MSET"
  | .cset _ _ => "CSET"
  | .kldn => "KLDN"
  | .fcons _ _ => "FCONS"
  | .fget _ => "FGET"
  | .fadd _ _ _ => "FADD"
  | .fsub _ _ _ => "FSUB"
  | .fmul _ _ _ => "FMUL"
  | .fpow _ _ _ => "FPOW"
  | .finv _ _ => "FINV"
  | .fdiv _ _ _ => "FDIV"
  | .feq _ _ => "FEQ"
  | .fred _ => "FRED"
  | .pcons _ _ _ => "PCONS"
  | .pinf _ _ => "PINF"
  | .pldg _ => "PLDG"
  | .pgetx _ _ => "PGETX"
  | .pgety _ _ => "PGETY"
  | .padd _ _ _ => "PADD"
  | .pdbl _ _ => "PDBL"
  | .pmul _ _ => "PMUL"
  | .peq _ _ => "PEQ"
  | .ptest _ => "PTEST"

end Sys2Proof
end

