-- ==== Sys2Proof/WellFormed.lean ====
section
/-! DEFINITION. Which command words are well formed: the opcode map of 30_encoding.md R95 as a table of match and
mask, and R96's "legal exactly when it matches one row". The decoder (Decode.lean) does not read this table: it
follows the formats of R92, so that the two descriptions check each other. A term of `Instr` is well formed by
its type (Syntax.lean). -/

namespace Sys2Proof

/-- One row of R95: a word `w` spells the command exactly when `(w and mask) = match`. -/
structure OpcodeRow where
  mnemonic : String
  value    : Word
  mask     : Word
deriving DecidableEq, Repr

/-- The opcode map of R95: "The 24 rows are all the commands there are." -/
def opcodeMap : List OpcodeRow :=
  [⟨"NOP", 0x01000000#32, 0xFFFFFFFF#32⟩,
   ⟨"MSET", 0x02000000#32, 0xFFFFFFFF#32⟩,
   ⟨"CSET", 0x03000000#32, 0xFFF88FFF#32⟩,
   ⟨"KLDN", 0x04000000#32, 0xFFFFFFFF#32⟩,
   ⟨"FCONS", 0x10000000#32, 0xFF8FFFFE#32⟩,
   ⟨"FGET", 0x11000000#32, 0xFFF8FFFF#32⟩,
   ⟨"FADD", 0x12000000#32, 0xFF888FFF#32⟩,
   ⟨"FSUB", 0x13000000#32, 0xFF888FFF#32⟩,
   ⟨"FMUL", 0x14000000#32, 0xFF888FFF#32⟩,
   ⟨"FPOW", 0x15000000#32, 0xFF88FFFE#32⟩,
   ⟨"FINV", 0x16000000#32, 0xFF88FFFF#32⟩,
   ⟨"FDIV", 0x17000000#32, 0xFF888FFF#32⟩,
   ⟨"FEQ", 0x18000000#32, 0xFFF88FFF#32⟩,
   ⟨"FRED", 0x19000000#32, 0xFF8FFFFF#32⟩,
   ⟨"PCONS", 0x20000000#32, 0xFFC88FFF#32⟩,
   ⟨"PINF", 0x21000000#32, 0xFFCFFFFE#32⟩,
   ⟨"PLDG", 0x22000000#32, 0xFFCFFFFF#32⟩,
   ⟨"PGETX", 0x23000000#32, 0xFF8CFFFF#32⟩,
   ⟨"PGETY", 0x24000000#32, 0xFF8CFFFF#32⟩,
   ⟨"PADD", 0x25000000#32, 0xFFCCCFFF#32⟩,
   ⟨"PDBL", 0x26000000#32, 0xFFCCFFFF#32⟩,
   ⟨"PMUL", 0x27000000#32, 0xFFCCFFFF#32⟩,
   ⟨"PEQ", 0x28000000#32, 0xFFFCCFFF#32⟩,
   ⟨"PTEST", 0x29000000#32, 0xFFFCFFFF#32⟩]

/-- A word matches a row (R95). -/
def OpcodeRow.matches (r : OpcodeRow) (w : Word) : Bool := w &&& r.mask == r.value

/-- A word is legal exactly when it matches one row of R95 (R96). -/
def legal (w : Word) : Bool := opcodeMap.any (·.matches w)

/-- The row of R95 that a word matches, if any. -/
def rowOf (w : Word) : Option OpcodeRow := opcodeMap.find? (·.matches w)

end Sys2Proof
end

