-- ==== Sys2Proof/Decode.lean ====
section
/-! DEFINITION. Decoding of a command word by the fields and formats of 30_encoding.md R91 to R94, total on every
word and answering `none` for an illegal one (R96), and the encoder that writes the word of a command. -/

namespace Sys2Proof

/-- The fields of a command word (R91). -/
def fieldsOf (w : Word) : CmdFields :=
  { op := w.extractLsb' 24 8, rd := w.extractLsb' 20 4, rs1 := w.extractLsb' 16 4, rs2 := w.extractLsb' 12 4,
    z := w.extractLsb' 1 11, m := w.extractLsb' 0 1 }

/-- Format letter `F`: a field-register index, 0 to 7 (R92). -/
def fReg (n : BitVec 4) : Option FIdx :=
  if h : n.toNat < 8 then some ⟨n.toNat, h⟩ else none

/-- Format letter `P`: a point-register index, 0 to 3 (R92). -/
def pReg (n : BitVec 4) : Option PIdx :=
  if h : n.toNat < 4 then some ⟨n.toNat, h⟩ else none

/-- Format letter `-`: the field is unused and must be 0 (R92). -/
def unused {k : Nat} (n : BitVec k) : Option Unit :=
  if n = 0 then some () else none

/-- The modifier `M` as `SEL` (R94): 0 is the programmable slot, 1 is secp256k1. -/
def selOf (m : BitVec 1) : Slot := if m = 0 then .prog else .secp

/-- The modifier `M` as `NEG` (R94). -/
def negOf (m : BitVec 1) : Bool := m = 1

/-- The command whose fields are `c`, or `none` where the word is illegal (R92 to R96). `Z` must be 0 in every
format and `M` must be 0 in every format without `m`. -/
def decodeFields (c : CmdFields) : Option Instr := do
  unused c.z
  match c.op.toNat with
  | 0x01 => do unused c.rd; unused c.rs1; unused c.rs2; unused c.m; some .nop
  | 0x02 => do unused c.rd; unused c.rs1; unused c.rs2; unused c.m; some .mset
  | 0x03 => do
    unused c.rd; let a ← fReg c.rs1; let b ← fReg c.rs2; unused c.m; some (.cset a b)
  | 0x04 => do unused c.rd; unused c.rs1; unused c.rs2; unused c.m; some .kldn
  | 0x10 => do
    let d ← fReg c.rd; unused c.rs1; unused c.rs2; some (.fcons d (selOf c.m))
  | 0x11 => do
    unused c.rd; let a ← fReg c.rs1; unused c.rs2; unused c.m; some (.fget a)
  | 0x12 => do
    let d ← fReg c.rd; let a ← fReg c.rs1; let b ← fReg c.rs2; unused c.m; some (.fadd d a b)
  | 0x13 => do
    let d ← fReg c.rd; let a ← fReg c.rs1; let b ← fReg c.rs2; unused c.m; some (.fsub d a b)
  | 0x14 => do
    let d ← fReg c.rd; let a ← fReg c.rs1; let b ← fReg c.rs2; unused c.m; some (.fmul d a b)
  | 0x15 => do
    let d ← fReg c.rd; let a ← fReg c.rs1; unused c.rs2; some (.fpow d a (negOf c.m))
  | 0x16 => do
    let d ← fReg c.rd; let a ← fReg c.rs1; unused c.rs2; unused c.m; some (.finv d a)
  | 0x17 => do
    let d ← fReg c.rd; let a ← fReg c.rs1; let b ← fReg c.rs2; unused c.m; some (.fdiv d a b)
  | 0x18 => do
    unused c.rd; let a ← fReg c.rs1; let b ← fReg c.rs2; unused c.m; some (.feq a b)
  | 0x19 => do
    let d ← fReg c.rd; unused c.rs1; unused c.rs2; unused c.m; some (.fred d)
  | 0x20 => do
    let d ← pReg c.rd; let a ← fReg c.rs1; let b ← fReg c.rs2; unused c.m; some (.pcons d a b)
  | 0x21 => do
    let d ← pReg c.rd; unused c.rs1; unused c.rs2; some (.pinf d (selOf c.m))
  | 0x22 => do
    let d ← pReg c.rd; unused c.rs1; unused c.rs2; unused c.m; some (.pldg d)
  | 0x23 => do
    let d ← fReg c.rd; let a ← pReg c.rs1; unused c.rs2; unused c.m; some (.pgetx d a)
  | 0x24 => do
    let d ← fReg c.rd; let a ← pReg c.rs1; unused c.rs2; unused c.m; some (.pgety d a)
  | 0x25 => do
    let d ← pReg c.rd; let a ← pReg c.rs1; let b ← pReg c.rs2; unused c.m; some (.padd d a b)
  | 0x26 => do
    let d ← pReg c.rd; let a ← pReg c.rs1; unused c.rs2; unused c.m; some (.pdbl d a)
  | 0x27 => do
    let d ← pReg c.rd; let a ← pReg c.rs1; unused c.rs2; unused c.m; some (.pmul d a)
  | 0x28 => do
    unused c.rd; let a ← pReg c.rs1; let b ← pReg c.rs2; unused c.m; some (.peq a b)
  | 0x29 => do
    unused c.rd; let a ← pReg c.rs1; unused c.rs2; unused c.m; some (.ptest a)
  | _ => none

/-- The command a word spells, or `none` where it is illegal (R95, R96). -/
def decode (w : Word) : Option Instr := decodeFields (fieldsOf w)

/-- The word with the given fields and `Z = 0` (R91). -/
def wordOf (op rd rs1 rs2 m : Nat) : Word :=
  BitVec.ofNat 32 (op * 2 ^ 24 + rd * 2 ^ 20 + rs1 * 2 ^ 16 + rs2 * 2 ^ 12 + m)

/-- The bit `M` that names a slot (R94). -/
def selBit : Slot → Nat
  | .prog => 0
  | .secp => 1

/-- The word of a command (R92, R95). -/
def encode : Instr → Word
  | .nop => wordOf 0x01 0 0 0 0
  | .mset => wordOf 0x02 0 0 0 0
  | .cset a b => wordOf 0x03 0 a b 0
  | .kldn => wordOf 0x04 0 0 0 0
  | .fcons d sel => wordOf 0x10 d 0 0 (selBit sel)
  | .fget a => wordOf 0x11 0 a 0 0
  | .fadd d a b => wordOf 0x12 d a b 0
  | .fsub d a b => wordOf 0x13 d a b 0
  | .fmul d a b => wordOf 0x14 d a b 0
  | .fpow d a neg => wordOf 0x15 d a 0 neg.toNat
  | .finv d a => wordOf 0x16 d a 0 0
  | .fdiv d a b => wordOf 0x17 d a b 0
  | .feq a b => wordOf 0x18 0 a b 0
  | .fred d => wordOf 0x19 d 0 0 0
  | .pcons d a b => wordOf 0x20 d a b 0
  | .pinf d sel => wordOf 0x21 d 0 0 (selBit sel)
  | .pldg d => wordOf 0x22 d 0 0 0
  | .pgetx d a => wordOf 0x23 d a 0 0
  | .pgety d a => wordOf 0x24 d a 0 0
  | .padd d a b => wordOf 0x25 d a b 0
  | .pdbl d a => wordOf 0x26 d a 0 0
  | .pmul d a => wordOf 0x27 d a 0 0
  | .peq a b => wordOf 0x28 0 a b 0
  | .ptest a => wordOf 0x29 0 a 0 0

/-- The host's view of the decoder: the command of an instruction whose `nbits` bits are `w`. A command is one
32-bit word, bit 0 the least significant (R90, R9), so there is nothing to lay out. -/
def decodeTableWord (nbits w : Nat) : Option Instr := decode (BitVec.ofNat 32 (w % 2 ^ nbits))

end Sys2Proof
end

