-- ==== Sys2Proof/Machine/State.lean ====
section
/-! DEFINITION. The state of the core (10_state.md R20, complete), the two lists that stand for the world outside
it (the events still to come and the words the host has read), the error kinds, and the state right after reset
(R38). Plain data throughout. -/

namespace Sys2Proof.Machine

/-- The content of a valid field register (R21): its modulus-slot tag `m` and its number `num`. -/
structure FieldRec where
  m   : Slot
  num : Value
deriving DecidableEq, Repr

/-- Where a valid point lies (R22): at infinity, where both coordinates are absent, or at finite coordinates. -/
inductive Coords where
  | infinity
  | finite (x y : Value)
deriving DecidableEq, Repr

/-- The content of a valid point register (R22): its curve-slot tag `c` and its point. -/
structure PointRec where
  c  : Slot
  pt : Coords
deriving DecidableEq, Repr

/-- The coefficients of the programmable curve (R24). -/
structure Coeffs where
  a : Value
  b : Value
deriving DecidableEq, Repr

/-- A curve triple `(a, b, p)` as `curve_of` yields it (R34). -/
structure Curve where
  a : Nat
  b : Nat
  p : Nat
deriving DecidableEq, Repr

/-- The errors a command can raise (60_exceptions.md R260, R261). Raising one is a next state (R263). -/
inductive ErrorKind where
  | range
  | curveMembership
  | fieldMismatch
  | curveMismatch
  | divisionByZero
  | absentValue
  | modulus
  | illegalCommand
deriving DecidableEq, Repr

/-- What happens next (00_scope.md R6): a bus access of the host at a byte offset of the window, the hardware
reset input, or the core's turn to do its `Complete` step. DESIGN CHOICE (log entries 1, 2). -/
inductive Event where
  | busRead (addr : Nat)
  | busWrite (addr : Nat) (data : Word)
  | reset
  | complete
deriving DecidableEq, Repr

/-- The whole state. Up to `cmdLatch` it is the core's own (R20); `irq` (R33) is a function of it (`State.irq`). -/
structure State where
  /-- Field registers `F0..F7` (R21); `none` is `v = 0`. -/
  F        : Vector (Option FieldRec) Config.numF
  /-- Point registers `P0..P3` (R22); `none` is `v = 0`. -/
  P        : Vector (Option PointRec) Config.numP
  /-- `PMOD` (R23); `none` is `mv = 0`. -/
  pmod     : Option Value
  /-- `CURVE0` (R24); `none` is `cv = 0`. -/
  curve0   : Option Coeffs
  /-- The scalar and exponent register `K` (R26). -/
  K        : Value
  /-- The data-in register `DINL` (R27). -/
  dinl     : Value
  /-- The data-in register `DINH` (R27). -/
  dinh     : Value
  /-- The data-out register `DOUT` (R28). -/
  dout     : Value
  /-- `STATUS.BUSY` (R29). -/
  busy     : Bool
  /-- `STATUS.DONE` (R29). -/
  done     : Bool
  /-- `STATUS.ERR` (R29). -/
  err      : Bool
  /-- `STATUS.OVR` (R29). -/
  ovr      : Bool
  /-- `STATUS.EQ` (R29, R37). -/
  eqFlag   : Bool
  /-- `STATUS.INF` (R29, R37). -/
  infFlag  : Bool
  /-- `STATUS.ERRCODE` (R29, R260). -/
  errCode  : BitVec 8
  /-- `CTRL.IE_DONE` (R30). -/
  ieDone   : Bool
  /-- `CTRL.IE_ERR` (R30). -/
  ieErr    : Bool
  /-- `ERRCMD` (R31). -/
  errCmd   : Word
  /-- `CMDLATCH` (R32). -/
  cmdLatch : Word
  /-- The model's own: the events still to come, first first (log entry 1). -/
  events   : List Event
  /-- The model's own: the words the host's reads returned, newest first (log entry 1). -/
  readLog  : List Word
deriving DecidableEq, Repr

/-- The reasons for which the machine itself stops. There are none: every error of this hardware is a reported
status after which the core goes on (R263), and every command completes (R120). Nobody raises one; safe. -/
inductive Fault where
deriving DecidableEq, Repr

/-- The reasons for which the model gives a step no meaning. -/
inductive Refusal where
  /-- Raised by `exec` for a command that has no meaning yet (none is left). Safe. -/
  | notModelled (mnemonic : String)
  /-- Raised by a bus read or write whose byte offset is misaligned or outside 0x000 to 0x3FC: "a model refuses
  it: it is not a host step" (20_memory.md R64, 93_implementation_defined.md U13). Safe. -/
  | notAHostStep (addr : Nat)
deriving DecidableEq, Repr

/-- The outcome of a step of this machine. -/
abbrev Outcome := Host.Outcome State Fault Refusal

/-- The state after reset (R38, R300). `cmdLatch`, which R38 leaves unspecified, is 0 (DESIGN CHOICE, log entry
6); no event is pending and nothing has been read (DESIGN CHOICE, log entry 1). -/
def State.reset : State where
  F := Vector.replicate Config.numF none
  P := Vector.replicate Config.numP none
  pmod := none
  curve0 := none
  K := 0
  dinl := 0
  dinh := 0
  dout := 0
  busy := false
  done := false
  err := false
  ovr := false
  eqFlag := false
  infFlag := false
  errCode := 0
  ieDone := false
  ieErr := false
  errCmd := 0
  cmdLatch := 0
  events := []
  readLog := []

end Sys2Proof.Machine
end

