-- ==== Sys2Proof/Machine/Constants.lean ====
section
/-! DEFINITION. The hardwired constants of slot 1 (44_secp256k1.md R240). The digits of `N`, `Gx`, `Gy` are
R240's own and marked there as general knowledge (PRESUMED, log entry 10). -/

namespace Sys2Proof.Machine

/-- `P_SECP`, "2^256 - 2^32 - 977" (R240). -/
def pSecp : Nat := 2 ^ 256 - 2 ^ 32 - 977

/-- `N_SECP`, the order of the generator (R240). -/
def nSecp : Nat := 0xFFFFFFFFFFFFFFFFFFFFFFFFFFFFFFFEBAAEDCE6AF48A03BBFD25E8CD0364141

/-- `GX`, the generator's `x` (R240). -/
def gx : Nat := 0x79BE667EF9DCBBAC55A06295CE870B07029BFCDB2DCE28D959F2815B16F81798

/-- `GY`, the generator's `y` (R240). -/
def gy : Nat := 0x483ADA7726A3C4655DA4FBFC0E1108A8FD17B448A68554199C47D08FFB10D4B8

/-- The coefficients of curve slot 1, `(0, 7)` (R25, R240). -/
def curveSecp : Curve := { a := 0, b := 7, p := pSecp }

end Sys2Proof.Machine
end

