-- ==== Sys2Proof/Machine/Arith.lean ====
section
/-! DEFINITION. The functions on mathematical integers the commands compute with: the remainder of 00_scope.md R8,
the field functions of 41_field.md R140, the curve test of 42_point.md R180 and the finite cases of the group law
(R182). Values are exact integers; a result is narrowed to a register only where it is written. -/

namespace Sys2Proof.Machine

/-- `z mod p` for an integer `z` that may be negative: the Euclidean remainder (R8). -/
def modInt (z : Int) (p : Nat) : Nat := (z % (p : Int)).toNat

/-- `bitlen(k)` (R8): 0 for 0, otherwise the least `n` with `k < 2^n`. -/
def bitlen (k : Nat) : Nat := if k = 0 then 0 else k.log2 + 1

/-- `fadd` (R140). -/
def fadd (a b p : Nat) : Nat := (a + b) % p

/-- `fsub` (R140): "a - b when a >= b, else a - b + p". -/
def fsub (a b p : Nat) : Nat := modInt ((a : Int) - b) p

/-- `fmul` (R140). -/
def fmul (a b p : Nat) : Nat := a * b % p

/-- `n` runs of square and multiply: `acc * base ^ (the low n bits of e) mod p`. -/
def powLoop (p : Nat) : Nat → Nat → Nat → Nat → Nat
  | 0, _, _, acc => acc
  | n + 1, base, e, acc => powLoop p n (base * base % p) (e / 2) (if e % 2 = 1 then acc * base % p else acc)

/-- `fpow` (R140): `(a ^ e) mod p`, with `a ^ 0 = 1` also for `a = 0`. Computed by square and multiply so that it
can be evaluated; `fpow_eq` (Laws/Arith.lean) shows that it is `a ^ e % p`. DESIGN CHOICE (log entry 13). -/
def fpow (a e p : Nat) : Nat := powLoop p (bitlen e) (a % p) e (1 % p)

/-- `finv` (R140): the Fermat power `b ^ (p - 2) mod p`. -/
def finv (b p : Nat) : Nat := fpow b (p - 2) p

/-- `fdiv` (R140). -/
def fdiv (a b p : Nat) : Nat := fmul a (finv b p) p

/-- The exponent of `FPOW` (R147): `K`, or `(-K) mod (p - 1)` when the modifier asks for a negative one. -/
def exponentOf (k : Nat) (neg : Bool) (p : Nat) : Nat :=
  if neg then modInt (-(k : Int)) (p - 1) else k

/-- `on_curve` (R180). -/
def onCurve (x y : Nat) (cv : Curve) : Bool :=
  y * y % cv.p = (x * x * x + cv.a * x + cv.b) % cv.p

/-- The third point of the line of slope `sl` through `(x1, y1)` and a point with abscissa `x2` (R182 cases 4 and
6, the latter with `x2 = x1`): `x3 = sl² - x1 - x2`, `y3 = sl·(x1 - x3) - y1`, both modulo `p`. -/
def thirdPoint (sl x1 y1 x2 p : Nat) : Coords :=
  let x3 := modInt ((sl : Int) * sl - x1 - x2) p
  let y3 := modInt ((sl : Int) * ((x1 : Int) - x3) - y1) p
  .finite (BitVec.ofNat 256 x3) (BitVec.ofNat 256 y3)

/-- R182 case 4, distinct `x`: the chord. -/
def chord (x1 y1 x2 y2 p : Nat) : Coords :=
  thirdPoint (fdiv (fsub y2 y1 p) (fsub x2 x1 p) p) x1 y1 x2 p

/-- R182 case 6, equal points: the tangent, or `DivisionByZeroError` where `(2*y1) mod p = 0`. -/
def tangent (cv : Curve) (x1 y1 : Nat) : Except ErrorKind Coords :=
  if 2 * y1 % cv.p = 0 then .error .divisionByZero
  else .ok (thirdPoint (fdiv ((3 * x1 * x1 + cv.a) % cv.p) (2 * y1 % cv.p) cv.p) x1 y1 x1 cv.p)

/-- R182 cases 3 to 6: the sum of two finite points of one curve, the cases tried in the rule's order. -/
def addFinite (cv : Curve) (x1 y1 x2 y2 : Nat) : Except ErrorKind Coords :=
  if x1 = x2 ∧ y1 ≠ y2 then .ok .infinity
  else if x1 ≠ x2 then .ok (chord x1 y1 x2 y2 cv.p)
  else if y1 = 0 then .ok .infinity
  else tangent cv x1 y1

end Sys2Proof.Machine
end

