-- ==== Sys2Proof/Machine/Ops.lean ====
section
/-! DEFINITION. The named operations on the state: the writes a command commits, the common completion and the
error entry of 40_config_and_system.md R120 and 60_exceptions.md R263 (one operation for all commands), the return
from an error (R265), and the reset (R300). -/

namespace Sys2Proof.Machine

/-- The code of an error in `STATUS.ERRCODE` (R260). -/
def ErrorKind.code : ErrorKind → BitVec 8
  | .range => 1
  | .curveMembership => 2
  | .fieldMismatch => 3
  | .curveMismatch => 4
  | .divisionByZero => 5
  | .absentValue => 6
  | .modulus => 7
  | .illegalCommand => 8

/-- `F[rd] <- (v = 1, m, num)` (R10, R21). -/
def State.writeF (s : State) (rd : FIdx) (m : Slot) (num : Nat) : State :=
  { s with F := s.F.set rd (some { m, num := BitVec.ofNat 256 num }) }

/-- `P[rd] <- rec` for a valid record (R10, R22). -/
def State.writeP (s : State) (rd : PIdx) (r : PointRec) : State :=
  { s with P := s.P.set rd (some r) }

/-- A field register without its value if that is of slot 0 (R122). -/
def keepSecpF : Option FieldRec → Option FieldRec
  | some r => if r.m = .prog then none else some r
  | none => none

/-- A point register without its value if that is of slot 0 (R122, R123). -/
def keepSecpP : Option PointRec → Option PointRec
  | some r => if r.c = .prog then none else some r
  | none => none

/-- The writes of `MSET` (R122): the new modulus; every slot-0 element, curve and point becomes invalid. -/
def State.setModulus (s : State) (v : Value) : State :=
  { s with pmod := some v, F := s.F.map keepSecpF, curve0 := none, P := s.P.map keepSecpP }

/-- The writes of `CSET` (R123): the new coefficients; every slot-0 point becomes invalid. -/
def State.setCurve (s : State) (a b : Value) : State :=
  { s with curve0 := some { a, b }, P := s.P.map keepSecpP }

/-- `K <- v` (R245). -/
def State.setK (s : State) (v : Value) : State := { s with K := v }

/-- `DOUT <- v` (R143). -/
def State.setDout (s : State) (v : Value) : State := { s with dout := v }

/-- The common completion (R120): `BUSY <- 0`, `DONE <- 1`. -/
def State.completed (s : State) : State := { s with busy := false, done := true }

/-- Error entry (R263): the whole effect of a `Complete` step that raises `e`. The word recorded is the one the
step executes, `CMDLATCH` (R120). -/
def State.raise (s : State) (e : ErrorKind) : State :=
  { s with busy := false, done := true, err := true, errCode := e.code, errCmd := s.cmdLatch }

/-- Return from an error, `CTRL.ERRCLR` (R265): nothing is restored, because nothing was saved. -/
def State.clearErr (s : State) : State := { s with err := false, errCode := 0, errCmd := 0 }

/-- Reset (R300, R38): every register of the core takes its reset value; what the world outside does next and has
read is not the core's and stays (log entry 7). -/
def State.resetCore (s : State) : State :=
  { State.reset with events := s.events, readLog := s.readLog }

/-- The end of a `Complete` step (R120): commit the writes of the pseudocode and complete, or, where it raised,
enter the error and write nothing else. -/
def finish (s : State) : Except ErrorKind State → Outcome
  | .ok t => .next t.completed
  | .error e => .next (s.raise e)

/-- `if not c then raise e` (R10). -/
def require (c : Bool) (e : ErrorKind) : Except ErrorKind Unit :=
  if c then .ok () else .error e

/-- The value of `o`, or `raise e` where there is none. -/
def orRaise {α : Type} (o : Option α) (e : ErrorKind) : Except ErrorKind α :=
  match o with
  | some a => .ok a
  | none => .error e

end Sys2Proof.Machine
end

