-- ==== Sys2Proof/Machine/Operands.lean ====
section
/-! DEFINITION. Operand fetch (41_field.md R141, 42_point.md R181), the slot lookup of 10_state.md R34, the operand
checks several commands share, the group law `padd` (R182) and the scalar loop `smul` (43_scalar.md R220). -/

namespace Sys2Proof.Machine

/-- `prime_of` (R34): `PMOD.val` for slot 0, defined only when `PMOD.mv = 1`; `P_SECP` for slot 1. -/
def primeOf (s : State) : Slot → Option Nat
  | .prog => s.pmod.map (·.toNat)
  | .secp => some pSecp

/-- `curve_of` (R34): for slot 0 the triple `(CURVE0.a, CURVE0.b, PMOD.val)`, defined only when `CURVE0.cv = 1`
(and `PMOD` holds a value, which R35 (c) says it then does); for slot 1 the constant. -/
def curveOf (s : State) : Slot → Option Curve
  | .prog =>
    match s.curve0, s.pmod with
    | some c, some p => some { a := c.a.toNat, b := c.b.toNat, p := p.toNat }
    | _, _ => none
  | .secp => some curveSecp

/-- `needF(i)` (R141). -/
def needF (s : State) (i : FIdx) : Except ErrorKind FieldRec := orRaise s.F[i] .absentValue

/-- `needP(j)` (R181). -/
def needP (s : State) (j : PIdx) : Except ErrorKind PointRec := orRaise s.P[j] .absentValue

/-- `prime_of(m)`, raising `AbsentValueError` where it is undefined: "slot 0 used with `PMOD.mv = 0`" (R261). For
the tag of a valid register that cannot happen (R35); DEDUCED (log entry 3). -/
def needPrime (s : State) (m : Slot) : Except ErrorKind Nat := orRaise (primeOf s m) .absentValue

/-- `curve_of(c)`, raising `AbsentValueError` where it is undefined: slot 0 used with "`CURVE0.cv = 0`" (R261).
DEDUCED for the tag of a valid register (log entry 3). -/
def needCurve (s : State) (c : Slot) : Except ErrorKind Curve := orRaise (curveOf s c) .absentValue

/-- Two field sources and the prime they share: the operands and checks of `FADD`, `FSUB`, `FMUL`, `FDIV` (R144). -/
def needSameField (s : State) (a b : FIdx) : Except ErrorKind (FieldRec × FieldRec × Nat) := do
  let A ← needF s a
  let B ← needF s b
  let p ← needPrime s A.m
  let q ← needPrime s B.m
  require (p = q) .fieldMismatch
  return (A, B, p)

/-- The group law `padd` (R182): case 1 compares the curves, case 2 is the identity, and the finite cases are
`addFinite`. A computed result carries the tag of the first operand; case 2 gives the other operand whole. -/
def padd (s : State) (A B : PointRec) : Except ErrorKind PointRec := do
  require (curveOf s A.c = curveOf s B.c) .curveMismatch
  let cv ← needCurve s A.c
  match A.pt, B.pt with
  | .infinity, _ => return B
  | _, .infinity => return A
  | .finite x1 y1, .finite x2 y2 =>
    let r ← addFinite cv x1.toNat y1.toNat x2.toNat y2.toNat
    return { c := A.c, pt := r }

/-- The conditional addition of a run of `smul` (R220): "if the lowest bit of `k` is set". -/
def addIfSet (s : State) (k : Nat) (result current : PointRec) : Except ErrorKind PointRec :=
  if k % 2 = 1 then padd s result current else .ok result

/-- `n` runs of the loop of `smul` (R220): add where the lowest bit of `k` is set, always double, halve `k`. -/
def smulLoop (s : State) : Nat → Nat → PointRec → PointRec → Except ErrorKind PointRec
  | 0, _, result, _ => .ok result
  | n + 1, k, result, current => do
    let result ← addIfSet s k result current
    let current ← padd s current current
    smulLoop s n (k / 2) result current

/-- `smul(k, A)` (R220): "The loop body runs `bitlen(k)` times". -/
def smul (s : State) (k : Nat) (A : PointRec) : Except ErrorKind PointRec :=
  smulLoop s (bitlen k) k { c := A.c, pt := .infinity } A

/-- The scalar of `PMUL` (R221): `K mod N_SECP` for a point of slot 1, `K` for one of slot 0. -/
def scalarFor (s : State) (c : Slot) : Nat :=
  match c with
  | .secp => s.K.toNat % nSecp
  | .prog => s.K.toNat

end Sys2Proof.Machine
end

