-- ==== Sys2Proof/Machine/Flags.lean ====
section
/-! DEFINITION. The two condition flags (10_state.md R37) and what the comparisons put in them, and the views of
the status bits: the words of `STATUS` (R29) and `CTRL` (R30) and the wire `irq` (R33). -/

namespace Sys2Proof.Machine

/-- `STATUS.EQ <- b`; only `FEQ` and `PEQ` do this (R37). -/
def State.setEq (s : State) (b : Bool) : State := { s with eqFlag := b }

/-- `STATUS.INF <- b`; only `PTEST` does this (R37). -/
def State.setInf (s : State) (b : Bool) : State := { s with infFlag := b }

/-- Equality of elements (R152): the same `num` and numerically the same prime. -/
def sameElement (s : State) (A B : FieldRec) : Bool :=
  A.num = B.num ∧ primeOf s A.m = primeOf s B.m

/-- Equality of points (R188): numerically the same curve, and both infinite or both finite with equal
coordinates. -/
def samePoint (s : State) (A B : PointRec) : Bool :=
  curveOf s A.c = curveOf s B.c ∧ A.pt = B.pt

/-- Whether a point is the identity (R187). -/
def Coords.isInfinity : Coords → Bool
  | .infinity => true
  | .finite _ _ => false

/-- The word of `STATUS` (R29); reserved bits read 0. -/
def State.statusWord (s : State) : Word :=
  BitVec.ofNat 32 (s.busy.toNat + 2 * s.done.toNat + 4 * s.err.toNat + 8 * s.ovr.toNat + 16 * s.eqFlag.toNat
    + 32 * s.infFlag.toNat + 256 * s.errCode.toNat)

/-- The word of `CTRL` (R30): the enables in bits 0 and 1, the action bits and reserved bits read 0. -/
def State.ctrlWord (s : State) : Word := BitVec.ofNat 32 (s.ieDone.toNat + 2 * s.ieErr.toNat)

/-- The interrupt wire (R33, R267). -/
def State.irq (s : State) : Bool := (s.done && s.ieDone) || (s.err && s.ieErr)

end Sys2Proof.Machine
end

