-- ==== Sys2Proof/Machine/Bus.lean ====
section
/-! DEFINITION. The host's register port (20_memory.md): the address map (R61), the words of a 256-bit register
(R62), reads (R65) and writes (R66 to R70, R77). -/

namespace Sys2Proof.Machine

/-- What a word of the window is (R61). -/
inductive PortWord where
  | cmd
  | status
  | ctrl
  | errcmd
  | dinl (i : Fin 8)
  | dinh (i : Fin 8)
  | k (i : Fin 8)
  | dout (i : Fin 8)
  | reserved
deriving DecidableEq, Repr

/-- The number of a word within its eight-word register (R61): bits 4:2 of the byte offset. -/
def wordIndex (addr : Nat) : Fin 8 := ⟨addr / 4 % 8, Nat.mod_lt _ (by decide)⟩

/-- The address map (R61) on byte offsets; `none` for an access that is no host step: misaligned or outside the
window (R60, R64). -/
def portWord (addr : Nat) : Option PortWord :=
  if addr % 4 ≠ 0 ∨ Config.windowBytes ≤ addr then none
  else if addr = 0x000 then some .cmd
  else if addr = 0x004 then some .status
  else if addr = 0x008 then some .ctrl
  else if addr = 0x00C then some .errcmd
  else if addr < 0x020 then some .reserved
  else if addr < 0x040 then some (.dinl (wordIndex addr))
  else if addr < 0x060 then some (.dinh (wordIndex addr))
  else if addr < 0x080 then some (.k (wordIndex addr))
  else if addr < 0x0A0 then some (.dout (wordIndex addr))
  else some .reserved

/-- Word `i` of a 256-bit register, its bits `32*i+31 : 32*i` (R62). -/
def getWord (v : Value) (i : Fin 8) : Word := v.extractLsb' (32 * i.val) 32

/-- A 256-bit register with its word `i` replaced (R62, R66). -/
def setWord (v : Value) (i : Fin 8) (d : Word) : Value :=
  (v &&& ~~~((0xFFFFFFFF#256) <<< (32 * i.val))) ||| ((d.setWidth 256) <<< (32 * i.val))

/-- What a read of a word returns (R65): a pure function of the state. -/
def readPort (s : State) : PortWord → Word
  | .cmd => 0
  | .status => s.statusWord
  | .ctrl => s.ctrlWord
  | .errcmd => s.errCmd
  | .dinl i => getWord s.dinl i
  | .dinh i => getWord s.dinh i
  | .k i => getWord s.K i
  | .dout i => getWord s.dout i
  | .reserved => 0

/-- A write that is discarded and recorded (R67): `STATUS.OVR <- 1`. -/
def State.lost (s : State) : State := { s with ovr := true }

/-- Accept (R68): `CMDLATCH <- w`, `BUSY <- 1`, `DONE <- 0`. -/
def State.accept (s : State) (w : Word) : State := { s with cmdLatch := w, busy := true, done := false }

/-- A write to `CMD` (R67, R68, R264). -/
def writeCmd (s : State) (w : Word) : State :=
  if s.busy ∨ s.err then s.lost else s.accept w

/-- A write to `CTRL` (R69). -/
def writeCtrl (s : State) (d : Word) : State :=
  if d.getLsbD 31 then s.resetCore
  else
    let s := { s with ieDone := d.getLsbD 0, ieErr := d.getLsbD 1 }
    let s := if d.getLsbD 8 then s.clearErr else s
    let s := if d.getLsbD 9 then { s with ovr := false } else s
    if d.getLsbD 10 then { s with done := false } else s

/-- A write of a word (R66 to R70, R77): data words only while not busy, reserved and read-only words never. -/
def writePort (s : State) (w : PortWord) (d : Word) : State :=
  match w with
  | .cmd => writeCmd s d
  | .ctrl => writeCtrl s d
  | .dinl i => if s.busy then s.lost else { s with dinl := setWord s.dinl i d }
  | .dinh i => if s.busy then s.lost else { s with dinh := setWord s.dinh i d }
  | .k i => if s.busy then s.lost else { s with K := setWord s.K i d }
  | .status => s
  | .errcmd => s
  | .dout _ => s
  | .reserved => s

/-- `BusRead(addr)` (R65); `none` where the access is no host step. -/
def busRead (s : State) (addr : Nat) : Option Word := (portWord addr).map (readPort s)

/-- The host's read as a step: nothing of the core changes; the word is added to what the host has read. -/
def hostRead (s : State) (addr : Nat) : Outcome :=
  match busRead s addr with
  | some w => .next { s with readLog := w :: s.readLog }
  | none => .refused (.notAHostStep addr)

/-- `BusWrite(addr, data)` as a step. -/
def hostWrite (s : State) (addr : Nat) (data : Word) : Outcome :=
  match portWord addr with
  | some w => .next (writePort s w data)
  | none => .refused (.notAHostStep addr)

end Sys2Proof.Machine
end

