-- ==== Sys2Proof/Machine/Field.lean ====
section
/-! DEFINITION. The field commands (41_field.md), `modular_mult` and `modular_inverse` among them. -/

namespace Sys2Proof.Machine

/-- `FCONS Fd, #sel` (R142): `DINL` as an element of the slot, in range only below its prime. -/
def execFcons (rd : FIdx) (sel : Slot) (s : State) : Outcome :=
  finish s do
    let p ← needPrime s sel
    require (s.dinl.toNat < p) .range
    return s.writeF rd sel s.dinl.toNat

/-- `FGET Fs1` (R143). -/
def execFget (rs1 : FIdx) (s : State) : Outcome :=
  finish s do
    let A ← needF s rs1
    return s.setDout A.num

/-- `FADD Fd, Fs1, Fs2` (R144). -/
def execFadd (rd rs1 rs2 : FIdx) (s : State) : Outcome :=
  finish s do
    let (A, B, p) ← needSameField s rs1 rs2
    return s.writeF rd A.m (fadd A.num.toNat B.num.toNat p)

/-- `FSUB Fd, Fs1, Fs2` (R145). -/
def execFsub (rd rs1 rs2 : FIdx) (s : State) : Outcome :=
  finish s do
    let (A, B, p) ← needSameField s rs1 rs2
    return s.writeF rd A.m (fsub A.num.toNat B.num.toNat p)

/-- `FMUL Fd, Fs1, Fs2` (R146). -/
def execFmul (rd rs1 rs2 : FIdx) (s : State) : Outcome :=
  finish s do
    let (A, B, p) ← needSameField s rs1 rs2
    return s.writeF rd A.m (fmul A.num.toNat B.num.toNat p)

/-- `FPOW Fd, Fs1, #neg` (R147): a negative exponent is reduced modulo `p - 1`, another is not. -/
def execFpow (rd rs1 : FIdx) (neg : Bool) (s : State) : Outcome :=
  finish s do
    let A ← needF s rs1
    let p ← needPrime s A.m
    return s.writeF rd A.m (fpow A.num.toNat (exponentOf s.K.toNat neg p) p)

/-- `FINV Fd, Fs1` (R148). -/
def execFinv (rd rs1 : FIdx) (s : State) : Outcome :=
  finish s do
    let A ← needF s rs1
    let p ← needPrime s A.m
    require (A.num ≠ 0) .divisionByZero
    return s.writeF rd A.m (finv A.num.toNat p)

/-- `FDIV Fd, Fs1, Fs2` (R149): the mismatch is checked before the zero divisor. -/
def execFdiv (rd rs1 rs2 : FIdx) (s : State) : Outcome :=
  finish s do
    let (A, B, p) ← needSameField s rs1 rs2
    require (B.num ≠ 0) .divisionByZero
    return s.writeF rd A.m (fdiv A.num.toNat B.num.toNat p)

/-- `FEQ Fs1, Fs2` (R152): elements of different primes compare unequal and raise nothing. -/
def execFeq (rs1 rs2 : FIdx) (s : State) : Outcome :=
  finish s do
    let A ← needF s rs1
    let B ← needF s rs2
    return s.setEq (sameElement s A B)

end Sys2Proof.Machine
end

