-- ==== Sys2Proof/Machine/Point.lean ====
section
/-! DEFINITION. The point commands (42_point.md), `point_adder` and `point_doubler` among them. -/

namespace Sys2Proof.Machine

/-- `PCONS Pd, Fs1, Fs2` (R183): the point's slot is the tag of `x`; the only place membership is checked. -/
def execPcons (rd : PIdx) (rs1 rs2 : FIdx) (s : State) : Outcome :=
  finish s do
    let X ← needF s rs1
    let Y ← needF s rs2
    let cv ← needCurve s X.m
    let q ← needPrime s Y.m
    require (cv.p = q) .fieldMismatch
    require (onCurve X.num.toNat Y.num.toNat cv) .curveMembership
    return s.writeP rd { c := X.m, pt := .finite X.num Y.num }

/-- `PINF Pd, #sel` (R184). -/
def execPinf (rd : PIdx) (sel : Slot) (s : State) : Outcome :=
  finish s do
    require (sel = .secp ∨ s.curve0.isSome) .absentValue
    return s.writeP rd { c := sel, pt := .infinity }

/-- `PGETX Fd, Ps1` (R185): the coordinates of infinity are absent. -/
def execPgetx (rd : FIdx) (rs1 : PIdx) (s : State) : Outcome :=
  finish s do
    let A ← needP s rs1
    match A.pt with
    | .infinity => .error .absentValue
    | .finite x _ => return s.writeF rd A.c x.toNat

/-- `PGETY Fd, Ps1` (R186). -/
def execPgety (rd : FIdx) (rs1 : PIdx) (s : State) : Outcome :=
  finish s do
    let A ← needP s rs1
    match A.pt with
    | .infinity => .error .absentValue
    | .finite _ y => return s.writeF rd A.c y.toNat

/-- `PTEST Ps1` (R187). -/
def execPtest (rs1 : PIdx) (s : State) : Outcome :=
  finish s do
    let A ← needP s rs1
    return s.setInf A.pt.isInfinity

/-- `PEQ Ps1, Ps2` (R188): points of different curves compare unequal and raise nothing. -/
def execPeq (rs1 rs2 : PIdx) (s : State) : Outcome :=
  finish s do
    let A ← needP s rs1
    let B ← needP s rs2
    return s.setEq (samePoint s A B)

/-- `PADD Pd, Ps1, Ps2` (R189). -/
def execPadd (rd rs1 rs2 : PIdx) (s : State) : Outcome :=
  finish s do
    let A ← needP s rs1
    let B ← needP s rs2
    let R ← padd s A B
    return s.writeP rd R

/-- `PDBL Pd, Ps1` (R190): `padd(A, A)`. -/
def execPdbl (rd rs1 : PIdx) (s : State) : Outcome :=
  finish s do
    let A ← needP s rs1
    let R ← padd s A A
    return s.writeP rd R

end Sys2Proof.Machine
end

