-- ==== Sys2Proof/Machine/Scalar.lean ====
section
/-! DEFINITION. The scalar multiplication `PMUL` (43_scalar.md), the sub-block `scalar_multiplier`. -/

namespace Sys2Proof.Machine

/-- `PMUL Pd, Ps1` (R221): the whole loop is one step; `K` is not changed. -/
def execPmul (rd rs1 : PIdx) (s : State) : Outcome :=
  finish s do
    let A ← needP s rs1
    let R ← smul s (scalarFor s A.c) A
    return s.writeP rd R

end Sys2Proof.Machine
end

