-- ==== Sys2Proof/Machine/Secp.lean ====
section
/-! DEFINITION. The secp256k1 commands `FRED`, `PLDG`, `KLDN` (44_secp256k1.md). -/

namespace Sys2Proof.Machine

/-- `FRED Fd` (R242): the 512-bit integer `{DINH, DINL}` (R62) modulo `P_SECP`, as an element of slot 1. -/
def execFred (rd : FIdx) (s : State) : Outcome :=
  finish s (.ok (s.writeF rd .secp ((s.dinh.toNat * 2 ^ 256 + s.dinl.toNat) % pSecp)))

/-- `PLDG Pd` (R244): the generator; it is not checked again. -/
def execPldg (rd : PIdx) (s : State) : Outcome :=
  finish s (.ok (s.writeP rd { c := .secp, pt := .finite (BitVec.ofNat 256 gx) (BitVec.ofNat 256 gy) }))

/-- `KLDN` (R245). -/
def execKldn (s : State) : Outcome := finish s (.ok (s.setK (BitVec.ofNat 256 nSecp)))

end Sys2Proof.Machine
end

