-- ==== Sys2Proof/Machine/System.lean ====
section
/-! DEFINITION. The system and configuration commands `NOP`, `MSET`, `CSET` (40_config_and_system.md). -/

namespace Sys2Proof.Machine

/-- `NOP` (R121): only the common completion. -/
def execNop (s : State) : Outcome := finish s (.ok s)

/-- `MSET` (R122): the modulus in `DINL` must be at least 2; primality is not tested. -/
def execMset (s : State) : Outcome :=
  finish s do
    require (2 ≤ s.dinl.toNat) .modulus
    return s.setModulus s.dinl

/-- `CSET Fs1, Fs2` (R123): both coefficients must be of the prime in `PMOD`, compared as a number. -/
def execCset (rs1 rs2 : FIdx) (s : State) : Outcome :=
  finish s do
    let A ← needF s rs1
    let B ← needF s rs2
    let p ← orRaise s.pmod .absentValue
    require (primeOf s A.m = some p.toNat ∧ primeOf s B.m = some p.toNat) .fieldMismatch
    return s.setCurve A.num B.num

end Sys2Proof.Machine
end

