-- ==== Sys2Proof/Machine/Dispatch.lean ====
section
/-! DEFINITION. The one match from a command to its meaning (30_encoding.md R95). -/

namespace Sys2Proof.Machine

def exec (i : Instr) (s : State) : Host.Outcome State Fault Refusal :=
  match i with
  -- 40_config_and_system.md
  | .nop => Sys2Proof.Machine.execNop s
  | .mset => Sys2Proof.Machine.execMset s
  | .cset rs1 rs2 => Sys2Proof.Machine.execCset rs1 rs2 s
  -- 44_secp256k1.md
  | .kldn => Sys2Proof.Machine.execKldn s
  -- 41_field.md
  | .fcons rd sel => Sys2Proof.Machine.execFcons rd sel s
  | .fget rs1 => Sys2Proof.Machine.execFget rs1 s
  | .fadd rd rs1 rs2 => Sys2Proof.Machine.execFadd rd rs1 rs2 s
  | .fsub rd rs1 rs2 => Sys2Proof.Machine.execFsub rd rs1 rs2 s
  | .fmul rd rs1 rs2 => Sys2Proof.Machine.execFmul rd rs1 rs2 s
  | .fpow rd rs1 neg => Sys2Proof.Machine.execFpow rd rs1 neg s
  | .finv rd rs1 => Sys2Proof.Machine.execFinv rd rs1 s
  | .fdiv rd rs1 rs2 => Sys2Proof.Machine.execFdiv rd rs1 rs2 s
  | .feq rs1 rs2 => Sys2Proof.Machine.execFeq rs1 rs2 s
  | .fred rd => Sys2Proof.Machine.execFred rd s
  -- 42_point.md, 43_scalar.md
  | .pcons rd rs1 rs2 => Sys2Proof.Machine.execPcons rd rs1 rs2 s
  | .pinf rd sel => Sys2Proof.Machine.execPinf rd sel s
  | .pldg rd => Sys2Proof.Machine.execPldg rd s
  | .pgetx rd rs1 => Sys2Proof.Machine.execPgetx rd rs1 s
  | .pgety rd rs1 => Sys2Proof.Machine.execPgety rd rs1 s
  | .padd rd rs1 rs2 => Sys2Proof.Machine.execPadd rd rs1 rs2 s
  | .pdbl rd rs1 => Sys2Proof.Machine.execPdbl rd rs1 s
  | .pmul rd rs1 => Sys2Proof.Machine.execPmul rd rs1 s
  | .peq rs1 rs2 => Sys2Proof.Machine.execPeq rs1 rs2 s
  | .ptest rs1 => Sys2Proof.Machine.execPtest rs1 s

end Sys2Proof.Machine
end

