-- ==== Sys2Proof/Machine/Complete.lean ====
section
/-! DEFINITION. The core's `Complete` step (40_config_and_system.md R120) and what each event does (00_scope.md
R6), with which word is fetched: the latched one. -/

namespace Sys2Proof.Machine

/-- The word the `Complete` step executes (R74, R120): "exactly the word `w` of the accepting write". -/
def fetch (s : State) : Word := s.cmdLatch

/-- The body of `Complete` (R120): first legality (R96, R100), then the command's own rule. -/
def completeBusy (s : State) : Outcome :=
  match decode (fetch s) with
  | some i => exec i s
  | none => .next (s.raise .illegalCommand)

/-- `Complete`, enabled exactly when `STATUS.BUSY = 1` (R120); otherwise the core is idle and keeps all state
(60_exceptions.md R270). -/
def complete (s : State) : Outcome := if s.busy then completeBusy s else .next s

/-- What one event does to the state (R6, R71). -/
def happen (e : Event) (s : State) : Outcome :=
  match e with
  | .busRead addr => hostRead s addr
  | .busWrite addr data => hostWrite s addr data
  | .reset => .next s.resetCore
  | .complete => complete s

/-- One move: the first pending event, taken from the list; with none pending, the core's own turn, so that an
enabled `Complete` eventually happens (70_reset_and_hazards.md R310; log entry 2). -/
def move (s : State) : Outcome :=
  match s.events with
  | e :: rest => happen e { s with events := rest }
  | [] => complete s

/-- The state with the word `w` accepted (R68) and the core's turn next. -/
def acceptNext (s : State) (w : Word) : State := { s.accept w with events := .complete :: s.events }

end Sys2Proof.Machine
end

