-- ==== Sys2Proof/Machine/Step.lean ====
section
/-! DEFINITION. One step of the machine, and how the host's probe places a command. -/

namespace Sys2Proof.Machine

/-- One step: the next event of the world outside, or the core's `Complete` (Machine/Complete.lean). -/
def step (s : State) : Host.Outcome State Fault Refusal := move s

/-- `s` with the command word `w` latched as an accept latches it (20_memory.md R68) and the core's turn next, so
that the very next step executes it. The core fetches no program (10_state.md R36); log entry 7. -/
def State.withFetchWord (s : State) (nbits w : Nat) : State :=
  acceptNext s (BitVec.ofNat 32 (w % 2 ^ nbits))

end Sys2Proof.Machine
end

