-- ==== Sys2Proof/Safety.lean ====
section
/-! DEFINITION. What counts as a good state, in the terms the statements use: the invariants of 10_state.md R35,
the codes of 60_exceptions.md R260, a run that has not gone wrong (70_reset_and_hazards.md R312), and the
destination registers by which frames are stated (R21, R22). -/

namespace Sys2Proof.Machine

/-- The number of a slot's prime covers a value: `prime_of` is defined and above it (R35 (b)). -/
def belowPrime (s : State) (m : Slot) (v : Value) : Prop := ∃ p, primeOf s m = some p ∧ v.toNat < p

/-- The invariants of R35, with the range of the error codes (R260). -/
structure State.Inv (s : State) : Prop where
  /-- R35 (a), (b). -/
  fieldsInRange : ∀ (i : FIdx) (r : FieldRec), s.F[i] = some r → belowPrime s r.m r.num
  /-- R35 (c). -/
  curveInRange : ∀ c : Coeffs, s.curve0 = some c → belowPrime s .prog c.a ∧ belowPrime s .prog c.b
  /-- R35 (d). -/
  pointsHaveCurve : ∀ (j : PIdx) (r : PointRec), s.P[j] = some r → r.c = .prog → s.curve0.isSome
  /-- R35 (e). -/
  pointsInRange : ∀ (j : PIdx) (r : PointRec) (x y : Value), s.P[j] = some r → r.pt = .finite x y →
    belowPrime s r.c x ∧ belowPrime s r.c y
  /-- R35 (f). -/
  modulusAtLeastTwo : ∀ v : Value, s.pmod = some v → 2 ≤ v.toNat
  /-- R35 (g). -/
  busyIsClean : s.busy = true → s.err = false ∧ s.done = false
  /-- R35 (h). -/
  noErrorNoRecord : s.err = false → s.errCode = 0 ∧ s.errCmd = 0
  /-- R260: an uncleared error has one of the codes 1 to 8. -/
  errorHasCode : s.err = true → 1 ≤ s.errCode.toNat ∧ s.errCode.toNat ≤ 8

/-- A run that has not gone wrong (R312): "`ERR = 0 and OVR = 0`". -/
def State.Fine (s : State) : Prop := s.err = false ∧ s.ovr = false

/-- The field register a command writes (R21). -/
def destF : Instr → Option FIdx
  | .fcons d _ => some d
  | .fadd d _ _ => some d
  | .fsub d _ _ => some d
  | .fmul d _ _ => some d
  | .fpow d _ _ => some d
  | .finv d _ => some d
  | .fdiv d _ _ => some d
  | .fred d => some d
  | .pgetx d _ => some d
  | .pgety d _ => some d
  | .nop | .mset | .cset _ _ | .kldn | .fget _ | .feq _ _ => none
  | .pcons _ _ _ | .pinf _ _ | .pldg _ | .padd _ _ _ | .pdbl _ _ | .pmul _ _ | .peq _ _ | .ptest _ => none

/-- The point register a command writes (R22). -/
def destP : Instr → Option PIdx
  | .pcons d _ _ => some d
  | .pinf d _ => some d
  | .pldg d => some d
  | .padd d _ _ => some d
  | .pdbl d _ => some d
  | .pmul d _ => some d
  | .nop | .mset | .cset _ _ | .kldn | .fcons _ _ | .fget _ | .fadd _ _ _ | .fsub _ _ _ | .fmul _ _ _ => none
  | .fpow _ _ _ | .finv _ _ | .fdiv _ _ _ | .feq _ _ | .fred _ | .pgetx _ _ | .pgety _ _ => none
  | .peq _ _ | .ptest _ => none

/-- The field registers a command names as sources (R92, R141). -/
def sourcesF : Instr → List FIdx
  | .cset a b => [a, b]
  | .fget a => [a]
  | .fadd _ a b => [a, b]
  | .fsub _ a b => [a, b]
  | .fmul _ a b => [a, b]
  | .fpow _ a _ => [a]
  | .finv _ a => [a]
  | .fdiv _ a b => [a, b]
  | .feq a b => [a, b]
  | .pcons _ a b => [a, b]
  | .nop | .mset | .kldn | .fcons _ _ | .fred _ => []
  | .pinf _ _ | .pldg _ | .pgetx _ _ | .pgety _ _ | .padd _ _ _ | .pdbl _ _ | .pmul _ _ | .peq _ _ | .ptest _ => []

/-- The point registers a command names as sources (R92, R181). -/
def sourcesP : Instr → List PIdx
  | .pgetx _ a => [a]
  | .pgety _ a => [a]
  | .padd _ a b => [a, b]
  | .pdbl _ a => [a]
  | .pmul _ a => [a]
  | .peq a b => [a, b]
  | .ptest a => [a]
  | .nop | .mset | .cset _ _ | .kldn | .fcons _ _ | .fget _ | .fadd _ _ _ | .fsub _ _ _ | .fmul _ _ _ => []
  | .fpow _ _ _ | .finv _ _ | .fdiv _ _ _ | .feq _ _ | .fred _ => []
  | .pcons _ _ _ | .pinf _ _ | .pldg _ => []

/-- A byte offset that is a host step: aligned and inside the window (R60, R64). -/
def inWindow (addr : Nat) : Bool := addr % 4 = 0 ∧ addr < 0x400

/-- A host access that is no soft reset (R69, R300). -/
def Event.isPlainAccess : Event → Bool
  | .busRead addr => inWindow addr
  | .busWrite addr data => inWindow addr && !(addr == 0x008 && data.getLsbD 31)
  | .reset => false
  | .complete => false

/-- An event that leaves an uncleared error in place (R264): any host access but a `CTRL` write with `ERRCLR` or
`SRST`, and the core's turn. -/
def Event.keepsError : Event → Bool
  | .busRead addr => inWindow addr
  | .busWrite addr data => inWindow addr && !(addr == 0x008 && (data.getLsbD 8 || data.getLsbD 31))
  | .reset => false
  | .complete => true

/-- Error entry in the words of 60_exceptions.md R263: the whole effect of raising the error with this code. -/
def State.errorEntry (s : State) (code : BitVec 8) : State :=
  { s with busy := false, done := true, err := true, errCode := code, errCmd := s.cmdLatch }

end Sys2Proof.Machine
end

