-- ==== Sys2Proof/Certificates/Slice0/Obligations.lean ====
section
/-! DEFINITION. The statements for the provers, from the numbered rules of spec/. A command's statement gives its
word (30_encoding.md R92, R95), its whole next state when it completes (so also its frame), and the error entry
(60_exceptions.md R263) for each of its errors in the order they are checked (R262). -/

open Sys2Proof Sys2Proof.Machine

namespace Sys2Proof.Spec

/-- The word of a command with the given fields (R91, R92). -/
def word (op rd rs1 rs2 m : Nat) : Word :=
  BitVec.ofNat 32 (op * 0x1000000 + rd * 0x100000 + rs1 * 0x10000 + rs2 * 0x1000 + m)

/-- A value that holds the integer `z mod p` (R8). -/
def holdsMod (v : Value) (z : Int) (p : Nat) : Prop := (v.toNat : Int) = z % (p : Int)

/-- The two coordinates R182 cases 4 and 6 give for a slope `sl`: `x3 = (s*s - x1 - x2) mod p`,
`y3 = (s*(x1 - x3) - y1) mod p`. -/
def thirdPointOf (sl : Int) (x1 y1 x2 : Value) (p : Nat) (x3 y3 : Value) : Prop :=
  holdsMod x3 (sl * sl - x1.toNat - x2.toNat) p ∧
  holdsMod y3 (sl * ((x1.toNat : Int) - x3.toNat) - y1.toNat) p

/-- The chord slope of R182 case 4, the division being R140's `fdiv`. -/
def chordSlope (x1 y1 x2 y2 : Value) (p : Nat) : Int :=
  ((y2.toNat : Int) - y1.toNat) * ((x2.toNat : Int) - x1.toNat) ^ (p - 2) % (p : Int)

/-- The tangent slope of R182 case 6. -/
def tangentSlope (x1 y1 : Value) (cv : Curve) : Int :=
  (3 * (x1.toNat : Int) * x1.toNat + cv.a) * (2 * (y1.toNat : Int)) ^ (cv.p - 2) % (cv.p : Int)

/-- The next state of a command that writes field register `d` and completes (R120). -/
def wroteF (s : State) (d : FIdx) (r : FieldRec) : State :=
  { s with F := s.F.set d (some r), busy := false, done := true }

/-- The next state of a command that writes point register `d` and completes (R120). -/
def wroteP (s : State) (d : PIdx) (r : PointRec) : State :=
  { s with P := s.P.set d (some r), busy := false, done := true }

/-- The rule `FADD`, `FSUB` and `FMUL` share (R144 to R146): the result is `f A B mod p` with the tag of `Fs1`;
an absent source raises code 6, different primes raise code 3. -/
def binaryFieldRule (cmd : FIdx → FIdx → FIdx → Instr) (op : Nat) (f : Int → Int → Int) : Prop :=
  ∀ (d a b : FIdx) (s : State),
    encode (cmd d a b) = word op d a b 0 ∧
    (∀ (A B : FieldRec) (p : Nat), s.F[a] = some A → s.F[b] = some B →
      primeOf s A.m = some p → primeOf s B.m = some p → 2 ≤ p →
      ∃ r : Value, holdsMod r (f A.num.toNat B.num.toNat) p ∧
        exec (cmd d a b) s = .next (wroteF s d { m := A.m, num := r })) ∧
    (s.F[a] = none ∨ s.F[b] = none → exec (cmd d a b) s = .next (s.errorEntry 6)) ∧
    (∀ (A B : FieldRec) (p q : Nat), s.F[a] = some A → s.F[b] = some B →
      primeOf s A.m = some p → primeOf s B.m = some q → p ≠ q →
      exec (cmd d a b) s = .next (s.errorEntry 3))

/-- The loop of `smul` as R220 writes it: "while k > 0". -/
def smulWhile (s : State) (k : Nat) (result current : PointRec) : Except ErrorKind PointRec :=
  if h : k = 0 then .ok result
  else
    (if k % 2 = 1 then padd s result current else .ok result).bind fun result' =>
      (padd s current current).bind fun current' => smulWhile s (k / 2) result' current'
termination_by k
decreasing_by exact Nat.div_lt_self (Nat.pos_of_ne_zero h) (by decide)

/-- The scalar `PMUL` multiplies by (R221): reduced modulo `N_SECP` for a slot-1 point only. -/
def scalarOf (s : State) (A : PointRec) : Nat :=
  if A.c = .secp then
    s.K.toNat % 115792089237316195423570985008687907852837564279074904382605163141518161494337
  else s.K.toNat

/-- Every register as R38 and R300 say reset leaves it. -/
def IsReset (t : State) : Prop :=
  (∀ i : FIdx, t.F[i] = none) ∧ (∀ j : PIdx, t.P[j] = none) ∧ t.pmod = none ∧ t.curve0 = none ∧
  t.K = 0 ∧ t.dinl = 0 ∧ t.dinh = 0 ∧ t.dout = 0 ∧
  t.busy = false ∧ t.done = false ∧ t.err = false ∧ t.ovr = false ∧ t.eqFlag = false ∧ t.infFlag = false ∧
  t.errCode = 0 ∧ t.ieDone = false ∧ t.ieErr = false ∧ t.errCmd = 0 ∧ t.irq = false

/-- The two states agree on every register a command reads or writes but `BUSY` and `DONE` (R20, R72). -/
def SameResult (t u : State) : Prop :=
  t.F = u.F ∧ t.P = u.P ∧ t.pmod = u.pmod ∧ t.curve0 = u.curve0 ∧ t.K = u.K ∧ t.dinl = u.dinl ∧
  t.dinh = u.dinh ∧ t.dout = u.dout ∧ t.eqFlag = u.eqFlag ∧ t.infFlag = u.infFlag ∧ t.err = u.err ∧
  t.errCode = u.errCode ∧ t.errCmd = u.errCmd

/-- A point with finite coordinates lies on the curve (R180); infinity has nothing to satisfy. -/
def OnCurve (cv : Curve) : Coords → Prop
  | .infinity => True
  | .finite x y =>
    x.toNat < cv.p ∧ y.toNat < cv.p ∧
      y.toNat * y.toNat % cv.p = (x.toNat * x.toNat * x.toNat + cv.a * x.toNat + cv.b) % cv.p

/-- Every valid point whose curve has a prime modulus lies on that curve (R191). -/
def PointsLieOnCurves (s : State) : Prop :=
  ∀ (j : PIdx) (r : PointRec) (cv : Curve), s.P[j] = some r → curveOf s r.c = some cv → cv.p.Prime → OnCurve cv r.pt

end Sys2Proof.Spec

open Sys2Proof.Spec

/-! ### Encoding -/

/-- Decoding the word of a command gives the command back, with every operand (R91 to R95). -/
def Obligations.DecodeEncodeRoundTrip : Prop := ∀ i : Instr, decode (encode i) = some i

/-- Every word that decodes is the word of its command: no bit of it is ignored (R91, R92). -/
def Obligations.EncodeDecodeRoundTrip : Prop := ∀ (w : Word) (i : Instr), decode w = some i → encode i = w

/-- The decoder by formats agrees with the table of match and mask (R95, R96): a word that decodes matches the
row of its command and no other, and a word that does not decode matches no row. -/
def Obligations.DecodeAgreesWithOpcodeMap : Prop :=
  ∀ w : Word,
    match decode w with
    | some i => ∀ r ∈ opcodeMap, (w &&& r.mask = r.value ↔ r.mnemonic = i.mnemonic)
    | none => ∀ r ∈ opcodeMap, w &&& r.mask ≠ r.value

/-- The example words of R98, and one word of the constants' family (R244). -/
def Obligations.ListedWordsDecode : Prop :=
  decode 0x12201000 = some (.fadd 2 0 1) ∧ decode 0x10100000 = some (.fcons 1 .prog) ∧
  decode 0x10100001 = some (.fcons 1 .secp) ∧ decode 0x15300001 = some (.fpow 3 0 true) ∧
  decode 0x20023000 = some (.pcons 0 2 3) ∧ decode 0x28012000 = some (.peq 1 2) ∧
  decode 0x29030000 = some (.ptest 3) ∧ decode 0x04000000 = some .kldn ∧
  decode 0x22000000 = some (.pldg 0) ∧ decode 0x00000000 = none ∧ decode 0xFFFFFFFF = none

/-! ### The step, completion and errors -/

/-- A step of a busy core, with no event pending or with the core's turn next, is `exec` of the command its latched
word spells; an idle core, whose `Complete` is not enabled, keeps its state in both cases (R120, R100, R270).
The events and their order are the model's choice (log entries 1, 2). -/
def Obligations.StepExecutesLatchedCommand : Prop :=
  ∀ s : State,
    (∀ i : Instr, s.busy = true → decode s.cmdLatch = some i →
      (s.events = [] → step s = exec i s) ∧
      (∀ rest, s.events = .complete :: rest → step s = exec i { s with events := rest })) ∧
    (s.busy = false →
      (s.events = [] → step s = .next s) ∧
      (∀ rest, s.events = .complete :: rest → step s = .next { s with events := rest }))

/-- Accept (R68): any word, when the core is neither busy nor in error, is latched and nothing else changes; with
no further event the next step completes it.
The events and their order are the model's choice (log entries 1, 2). -/
def Obligations.AcceptLatchesTheWord : Prop :=
  ∀ (s : State) (w : Word) (rest : List Event), s.busy = false → s.err = false →
    s.events = .busWrite 0x000 w :: rest →
    step s = .next { s with cmdLatch := w, busy := true, done := false, events := rest } ∧
    ∃ u : State, step { s with cmdLatch := w, busy := true, done := false, events := [] } = .next u ∧
      u.busy = false ∧ u.done = true

/-- A word that matches no row of the opcode map raises `IllegalCommandError` and changes nothing else (R96).
The events and their order are the model's choice (log entries 1, 2). -/
def Obligations.IllegalWordRaises : Prop :=
  ∀ s : State, s.busy = true → s.events = [] → (∀ r ∈ opcodeMap, s.cmdLatch &&& r.mask ≠ r.value) →
    step s = .next (s.errorEntry 8)

/-- Every command, in every state, answers a next state with `BUSY = 0` and `DONE = 1`; the error record is the one
it had or a new one of codes 1 to 7 (R120, R261). -/
def Obligations.EveryCommandCompletes : Prop :=
  ∀ (i : Instr) (s : State), ∃ t : State, exec i s = .next t ∧ t.busy = false ∧ t.done = true ∧
    ((t.err = s.err ∧ t.errCode = s.errCode ∧ t.errCmd = s.errCmd) ∨
     (∃ code : BitVec 8, 1 ≤ code.toNat ∧ code.toNat ≤ 7 ∧ t = s.errorEntry code))

/-- Errors are precise (R263): when the core's step leaves an error where there was none, its whole effect is the
error entry.
The events and their order are the model's choice (log entries 1, 2). -/
def Obligations.ErrorsArePrecise : Prop :=
  ∀ s t : State, s.busy = true → s.err = false → s.events = [] → step s = .next t → t.err = true →
    ∃ code : BitVec 8, 1 ≤ code.toNat ∧ code.toNat ≤ 8 ∧
      t = { s with busy := false, done := true, err := true, errCode := code, errCmd := s.cmdLatch }

/-- A bus access that is misaligned or outside the window is refused by name, and every other step answers a next
state (R64, R60). Refusing it, and the events, are the model's choices (log entries 9, 1). -/
def Obligations.OnlyBadAccessesAreRefused : Prop :=
  ∀ s : State,
    (∀ (addr : Nat) (d : Word) (rest : List Event), (addr % 4 ≠ 0 ∨ 0x400 ≤ addr) →
      s.events = .busRead addr :: rest ∨ s.events = .busWrite addr d :: rest →
      step s = .refused (.notAHostStep addr)) ∧
    ((∀ (addr : Nat) (d : Word) (rest : List Event),
      s.events = .busRead addr :: rest ∨ s.events = .busWrite addr d :: rest → addr % 4 = 0 ∧ addr < 0x400) →
      ∃ t : State, step s = .next t)

/-! ### Who writes what -/

/-- The flags (R37): `EQ` is written by `FEQ` and `PEQ`, `INF` by `PTEST`, and by nothing else (reset apart); a
command that raises an error writes no flag.
A host access is the first pending event: the model's choice (log entry 1). -/
def Obligations.FlagsOnlyByComparisons : Prop :=
  (∀ (i : Instr) (s t : State), exec i s = .next t →
    (t.eqFlag ≠ s.eqFlag → (∃ a b, i = .feq a b) ∨ (∃ a b, i = .peq a b)) ∧
    (t.infFlag ≠ s.infFlag → ∃ a, i = .ptest a) ∧
    (t.err ≠ s.err → t.eqFlag = s.eqFlag ∧ t.infFlag = s.infFlag)) ∧
  (∀ (s t : State) (e : Event) (rest : List Event), s.events = e :: rest → e.isPlainAccess = true →
    step s = .next t → t.eqFlag = s.eqFlag ∧ t.infFlag = s.infFlag)

/-- Who writes the wide registers (R23, R24, R26, R27, R28): `PMOD` only `MSET`, `CURVE0` only `MSET` and `CSET`, `K`
only `KLDN`, `DOUT` only `FGET`; no command writes `DINL` or `DINH`, nor `CTRL` or `OVR`, which R120's step does not
name. That `CMDLATCH` keeps the executed word after completion, which the spec leaves open (R32, U7), is the model's
choice (log entry 6); that the pending events and the words read stay is the model's too (log entry 1). -/
def Obligations.WideRegistersFrame : Prop :=
  ∀ (i : Instr) (s t : State), exec i s = .next t →
    (t.pmod ≠ s.pmod → i = .mset) ∧
    (t.curve0 ≠ s.curve0 → i = .mset ∨ ∃ a b, i = .cset a b) ∧
    (t.K ≠ s.K → i = .kldn) ∧
    (t.dout ≠ s.dout → ∃ a, i = .fget a) ∧
    t.dinl = s.dinl ∧ t.dinh = s.dinh ∧ t.ieDone = s.ieDone ∧ t.ieErr = s.ieErr ∧ t.ovr = s.ovr ∧
    t.cmdLatch = s.cmdLatch ∧ t.events = s.events ∧ t.readLog = s.readLog

/-- The frame of the field registers (R21): a command leaves every field register but its destination as it was,
except that `MSET` may invalidate it; and a destination that changes holds a value. -/
def Obligations.FieldRegistersFrame : Prop :=
  ∀ (i : Instr) (s t : State) (j : FIdx), exec i s = .next t →
    (destF i ≠ some j → t.F[j] = s.F[j] ∨ (i = .mset ∧ t.F[j] = none)) ∧
    (destF i = some j → t.F[j] = s.F[j] ∨ t.F[j].isSome = true)

/-- The frame of the point registers (R22): as for the field registers, with `MSET` and `CSET` invalidating. -/
def Obligations.PointRegistersFrame : Prop :=
  ∀ (i : Instr) (s t : State) (j : PIdx), exec i s = .next t →
    (destP i ≠ some j → t.P[j] = s.P[j] ∨ ((i = .mset ∨ ∃ a b, i = .cset a b) ∧ t.P[j] = none)) ∧
    (destP i = some j → t.P[j] = s.P[j] ∨ t.P[j].isSome = true)

/-- Operand fetch (R141, R181): a command one of whose sources is invalid raises `AbsentValueError`, whatever else
holds, since no check but legality comes before (R262). -/
def Obligations.AbsentSourceRaises : Prop :=
  ∀ (i : Instr) (s : State),
    (∃ a ∈ sourcesF i, s.F[a] = none) ∨ (∃ a ∈ sourcesP i, s.P[a] = none) →
    exec i s = .next (s.errorEntry 6)

/-! ### The host's port -/

/-- Discarded writes (R67): to `CMD` or a data word while busy, and to `CMD` while an error is uncleared; only `OVR`
is set. It stays set until `OVRCLR` or a reset.
A host access is the first pending event: the model's choice (log entry 1). -/
def Obligations.DiscardedWritesSetOvr : Prop :=
  (∀ (s : State) (addr : Nat) (d : Word) (rest : List Event), s.events = .busWrite addr d :: rest →
    (s.busy = true ∧ (addr = 0x000 ∨ (addr % 4 = 0 ∧ 0x020 ≤ addr ∧ addr < 0x080)) ∨
     s.busy = false ∧ s.err = true ∧ addr = 0x000) →
    step s = .next { s with ovr := true, events := rest }) ∧
  (∀ s t : State, s.ovr = true → step s = .next t →
    (∀ rest, s.events ≠ .reset :: rest) →
    (∀ d rest, s.events = .busWrite 0x008 d :: rest → d.getLsbD 9 = false ∧ d.getLsbD 31 = false) →
    t.ovr = true)

/-- A write of a data word while not busy replaces that word of the register and nothing else (R66, R62).
A host access is the first pending event: the model's choice (log entry 1). -/
def Obligations.DataWordWrite : Prop :=
  ∀ (s : State) (i : Fin 8) (d : Word) (rest : List Event), s.busy = false →
    let replaces (old new : Value) : Prop :=
      new.extractLsb' (32 * i.val) 32 = d ∧
      ∀ j : Fin 8, j ≠ i → new.extractLsb' (32 * j.val) 32 = old.extractLsb' (32 * j.val) 32
    (s.events = .busWrite (0x020 + 4 * i.val) d :: rest →
      ∃ v, replaces s.dinl v ∧ step s = .next { s with dinl := v, events := rest }) ∧
    (s.events = .busWrite (0x040 + 4 * i.val) d :: rest →
      ∃ v, replaces s.dinh v ∧ step s = .next { s with dinh := v, events := rest }) ∧
    (s.events = .busWrite (0x060 + 4 * i.val) d :: rest →
      ∃ v, replaces s.K v ∧ step s = .next { s with K := v, events := rest })

/-- A write to `CTRL` (R69), at any time: the enables are written and the action bits act; bit 31 resets and every
other bit is then ignored; a read returns the enables.
A host access is the first pending event: the model's choice (log entry 1). -/
def Obligations.CtrlWrite : Prop :=
  ∀ (s : State) (d : Word) (rest : List Event), s.events = .busWrite 0x008 d :: rest →
    (d.getLsbD 31 = false →
      step s = .next { s with
        events := rest
        ieDone := d.getLsbD 0
        ieErr := d.getLsbD 1
        err := if d.getLsbD 8 then false else s.err
        errCode := if d.getLsbD 8 then 0 else s.errCode
        errCmd := if d.getLsbD 8 then 0 else s.errCmd
        ovr := if d.getLsbD 9 then false else s.ovr
        done := if d.getLsbD 10 then false else s.done }) ∧
    (d.getLsbD 31 = true → ∃ t, step s = .next t ∧ IsReset t) ∧
    (∀ s' : State, s'.events = .busRead 0x008 :: rest →
      ∃ w : Word, step s' = .next { s' with events := rest, readLog := w :: s'.readLog } ∧
        w.getLsbD 0 = s'.ieDone ∧ w.getLsbD 1 = s'.ieErr ∧ ∀ k, 2 ≤ k → w.getLsbD k = false)

/-- Reset (R300, R38): from every state, also while busy, the reset input and the soft reset lead to the reset
state, and that is the state the machine starts in. The host's own pending events and what it has read are not the
core's and stay.
That the pending events stay is the model's choice (log entry 7). -/
def Obligations.ResetFromEveryState : Prop :=
  IsReset State.reset ∧
  ∀ (s : State) (rest : List Event) (d : Word),
    s.events = .reset :: rest ∨ (s.events = .busWrite 0x008 d :: rest ∧ d.getLsbD 31 = true) →
    ∃ t : State, step s = .next t ∧ IsReset t ∧ t.events = rest ∧ t.readLog = s.readLog

/-- Writes to reserved and read-only words change nothing, and reserved words and `CMD` read 0 (R70, R77).
A host access is the first pending event: the model's choice (log entry 1). -/
def Obligations.ReservedAndReadOnlyWords : Prop :=
  ∀ (s : State) (addr : Nat) (rest : List Event), addr % 4 = 0 →
    let reserved : Prop := (0x010 ≤ addr ∧ addr < 0x020) ∨ (0x0A0 ≤ addr ∧ addr < 0x400)
    let readOnly : Prop := addr = 0x004 ∨ addr = 0x00C ∨ (0x080 ≤ addr ∧ addr < 0x0A0)
    (∀ d : Word, s.events = .busWrite addr d :: rest → reserved ∨ readOnly →
      step s = .next { s with events := rest }) ∧
    (s.events = .busRead addr :: rest → reserved ∨ addr = 0x000 →
      step s = .next { s with events := rest, readLog := 0 :: s.readLog })

/-- A read (R65): it changes nothing of the core, and returns what the map (R61, R62) and the layouts of `STATUS` (R29)
and `ERRCMD` (R31) say.
A host access is the first pending event: the model's choice (log entry 1). -/
def Obligations.ReadReturnsTheWord : Prop :=
  ∀ (s : State) (addr : Nat) (rest : List Event), s.events = .busRead addr :: rest →
    addr % 4 = 0 → addr < 0x400 →
    ∃ w : Word, step s = .next { s with events := rest, readLog := w :: s.readLog } ∧
      (addr = 0x004 →
        w.getLsbD 0 = s.busy ∧ w.getLsbD 1 = s.done ∧ w.getLsbD 2 = s.err ∧ w.getLsbD 3 = s.ovr ∧
        w.getLsbD 4 = s.eqFlag ∧ w.getLsbD 5 = s.infFlag ∧ w.getLsbD 6 = false ∧ w.getLsbD 7 = false ∧
        w.extractLsb' 8 8 = s.errCode ∧ ∀ k, 16 ≤ k → w.getLsbD k = false) ∧
      (addr = 0x00C → w = s.errCmd) ∧
      (∀ i : Fin 8,
        (addr = 0x020 + 4 * i.val → w = s.dinl.extractLsb' (32 * i.val) 32) ∧
        (addr = 0x040 + 4 * i.val → w = s.dinh.extractLsb' (32 * i.val) 32) ∧
        (addr = 0x060 + 4 * i.val → w = s.K.extractLsb' (32 * i.val) 32) ∧
        (addr = 0x080 + 4 * i.val → w = s.dout.extractLsb' (32 * i.val) 32))

/-- The operands of a command are those at accept (R72): whatever the host reads and writes between the accept and
the `Complete` step (soft reset apart), the step has the result it would have had at once.
The events and their order are the model's choice (log entries 1, 2). -/
def Obligations.OperandsAreThoseAtAccept : Prop :=
  ∀ (s : State) (evs : List Event), s.Inv → s.busy = true → s.events = evs ++ [.complete] →
    (∀ e ∈ evs, e.isPlainAccess = true) →
    ∃ t u : State, step { s with events := [] } = .next t ∧
      Host.Core.run Sys2Proof.core (evs.length + 1) s = .next u ∧
      SameResult u t ∧ u.busy = false ∧ u.done = true

/-- The lock-out (R264): while an error is uncleared no command is executed, whatever the host writes and however
often the core has its turn; the error record and every result stay.
The events and their order are the model's choice (log entries 1, 2). -/
def Obligations.ErrorLocksOutCommands : Prop :=
  ∀ (s : State) (evs : List Event), s.busy = false → s.err = true → s.events = evs →
    (∀ e ∈ evs, e.keepsError = true) →
    ∃ t : State, Host.Core.run Sys2Proof.core evs.length s = .next t ∧
      t.busy = false ∧ t.err = true ∧ t.errCode = s.errCode ∧ t.errCmd = s.errCmd ∧
      t.F = s.F ∧ t.P = s.P ∧ t.pmod = s.pmod ∧ t.curve0 = s.curve0 ∧ t.dout = s.dout ∧
      t.eqFlag = s.eqFlag ∧ t.infFlag = s.infFlag

/-- The interrupt wire (R267): at a completion it shows the enabled sources; an accept lowers `DONE`, a `CTRL` write
with `DONECLR` and `ERRCLR` lowers it altogether, and after reset it is low.
The events and their order are the model's choice (log entries 1, 2). -/
def Obligations.InterruptLevel : Prop :=
  (∀ (i : Instr) (s t : State), exec i s = .next t → t.irq = (s.ieDone || (t.err && s.ieErr))) ∧
  (∀ (s t : State) (w : Word) (rest : List Event), s.events = .busWrite 0x000 w :: rest → s.busy = false →
    s.err = false → step s = .next t → t.irq = false) ∧
  (∀ (s t : State) (d : Word) (rest : List Event), s.events = .busWrite 0x008 d :: rest → step s = .next t →
    d.getLsbD 8 = true → d.getLsbD 10 = true → t.irq = false) ∧
  (∀ (s t : State) (rest : List Event), s.events = .reset :: rest → step s = .next t → t.irq = false)

/-! ### Invariants -/

/-- The reset state meets the invariants of R35. -/
def Obligations.ResetMeetsInvariants : Prop := State.reset.Inv

/-- Every step, of the core, of the host and of the reset input, keeps the invariants of R35.
The events and their order are the model's choice (log entries 1, 2). -/
def Obligations.StepKeepsInvariants : Prop := ∀ s t : State, s.Inv → step s = .next t → t.Inv

/-- After any number of steps of any host program from reset the invariants of R35 hold.
The events and their order are the model's choice (log entries 1, 2). -/
def Obligations.EveryRunMeetsInvariants : Prop :=
  ∀ (evs : List Event) (n : Nat) (t : State),
    Host.Core.run Sys2Proof.core n { State.reset with events := evs } = .next t → t.Inv

/-- At reset every valid point of a prime modulus lies on its curve: there is no valid point (R38). -/
def Obligations.ResetPointsLieOnCurves : Prop := PointsLieOnCurves State.reset

/-- Every step, of the core, of the host and of the reset input, keeps every valid point of a prime modulus on its
curve, though only `PCONS` checks membership (R183, R191): the group law stays on the curve, the generator lies on it,
and a change of the modulus or of the coefficients invalidates the points it would move off.
The events and their order are the model's choice (log entries 1, 2). -/
def Obligations.StepKeepsPointsOnCurves : Prop :=
  ∀ s t : State, s.Inv → PointsLieOnCurves s → step s = .next t → PointsLieOnCurves t

/-! ### System and configuration commands, constants -/

/-- `NOP` (R121): only the common completion. -/
def Obligations.NopOnlyCompletes : Prop :=
  encode .nop = 0x01000000 ∧ ∀ s : State, exec .nop s = .next { s with busy := false, done := true }

/-- `MSET` (R122): the modulus is `DINL`, every slot-0 element, curve and point becomes invalid, slot 1 is untouched;
`ModulusError` below 2. -/
def Obligations.MsetSetsModulus : Prop :=
  encode .mset = 0x02000000 ∧
  ∀ s : State,
    (2 ≤ s.dinl.toNat → ∃ (F' : Vector (Option FieldRec) 8) (P' : Vector (Option PointRec) 4),
      exec .mset s = .next { s with
        pmod := some s.dinl, F := F', curve0 := none, P := P', busy := false, done := true } ∧
      (∀ (i : FIdx) (r : FieldRec), s.F[i] = some r → F'[i] = if r.m = .prog then none else some r) ∧
      (∀ i : FIdx, s.F[i] = none → F'[i] = none) ∧
      (∀ (j : PIdx) (r : PointRec), s.P[j] = some r → P'[j] = if r.c = .prog then none else some r) ∧
      (∀ j : PIdx, s.P[j] = none → P'[j] = none)) ∧
    (s.dinl.toNat < 2 → exec .mset s = .next (s.errorEntry 7))

/-- `CSET` (R123): the coefficients, from two elements whose prime is the number in `PMOD`; every slot-0 point becomes
invalid; errors in the rule's order. -/
def Obligations.CsetSetsCurve : Prop :=
  ∀ (a b : FIdx) (s : State),
    encode (.cset a b) = word 0x03 0 a b 0 ∧
    (∀ (A B : FieldRec) (p : Value), s.F[a] = some A → s.F[b] = some B → s.pmod = some p →
      primeOf s A.m = some p.toNat → primeOf s B.m = some p.toNat →
      ∃ P' : Vector (Option PointRec) 4,
        exec (.cset a b) s = .next { s with
          curve0 := some { a := A.num, b := B.num }, P := P', busy := false, done := true } ∧
        (∀ (j : PIdx) (r : PointRec), s.P[j] = some r → P'[j] = if r.c = .prog then none else some r) ∧
        (∀ j : PIdx, s.P[j] = none → P'[j] = none)) ∧
    (s.F[a] = none ∨ s.F[b] = none ∨ s.pmod = none → exec (.cset a b) s = .next (s.errorEntry 6)) ∧
    (∀ (A B : FieldRec) (p : Value), s.F[a] = some A → s.F[b] = some B → s.pmod = some p →
      (primeOf s A.m ≠ some p.toNat ∨ primeOf s B.m ≠ some p.toNat) →
      exec (.cset a b) s = .next (s.errorEntry 3))

/-- `KLDN` (R245): `K <- N_SECP`, whose words the rule lists.
The digits are general knowledge of the spec (G1, log entry 10). -/
def Obligations.KldnLoadsTheOrder : Prop :=
  encode .kldn = 0x04000000 ∧
  ∀ s : State, ∃ v : Value, exec .kldn s = .next { s with K := v, busy := false, done := true } ∧
    v.extractLsb' 0 32 = (0xD0364141 : Word) ∧ v.extractLsb' 32 32 = (0xBFD25E8C : Word) ∧
    v.extractLsb' 64 32 = (0xAF48A03B : Word) ∧ v.extractLsb' 96 32 = (0xBAAEDCE6 : Word) ∧
    v.extractLsb' 128 32 = (0xFFFFFFFE : Word) ∧ v.extractLsb' 160 32 = (0xFFFFFFFF : Word) ∧
    v.extractLsb' 192 32 = (0xFFFFFFFF : Word) ∧ v.extractLsb' 224 32 = (0xFFFFFFFF : Word)

/-- `FRED` (R242): the 512-bit integer in `DINH`, `DINL` modulo `2^256 - 2^32 - 977`. -/
def Obligations.FredReduces : Prop :=
  ∀ (d : FIdx) (s : State),
    encode (.fred d) = word 0x19 d 0 0 0 ∧
    ∃ r : Value,
      holdsMod r ((s.dinh.toNat : Int) * 2 ^ 256 + s.dinl.toNat) (2 ^ 256 - 2 ^ 32 - 977) ∧
      exec (.fred d) s = .next (wroteF s d { m := .secp, num := r })

/-- `PLDG` (R244): the generator, which lies on `y² = x³ + 7`.
The digits are general knowledge of the spec (G1, log entry 10). -/
def Obligations.PldgLoadsTheGenerator : Prop :=
  ∀ (d : PIdx) (s : State),
    encode (.pldg d) = word 0x22 d 0 0 0 ∧
    ∃ x y : Value,
      x = 0x79BE667EF9DCBBAC55A06295CE870B07029BFCDB2DCE28D959F2815B16F81798 ∧
      y = 0x483ADA7726A3C4655DA4FBFC0E1108A8FD17B448A68554199C47D08FFB10D4B8 ∧
      exec (.pldg d) s = .next (wroteP s d { c := .secp, pt := .finite x y }) ∧
      y.toNat * y.toNat % (2 ^ 256 - 2 ^ 32 - 977) =
        (x.toNat * x.toNat * x.toNat + 7) % (2 ^ 256 - 2 ^ 32 - 977)

/-! ### Field commands -/

/-- `FCONS` (R142): the number in `DINL` as an element of the slot; `AbsentValueError` where slot 0 has no modulus,
`RangeError` at or above the prime. -/
def Obligations.FconsConstructs : Prop :=
  ∀ (d : FIdx) (sel : Slot) (s : State),
    encode (.fcons d sel) = word 0x10 d 0 0 (if sel = .secp then 1 else 0) ∧
    (∀ p, primeOf s sel = some p → s.dinl.toNat < p →
      exec (.fcons d sel) s = .next (wroteF s d { m := sel, num := s.dinl })) ∧
    (sel = .prog → s.pmod = none → exec (.fcons d sel) s = .next (s.errorEntry 6)) ∧
    (∀ p, primeOf s sel = some p → p ≤ s.dinl.toNat → exec (.fcons d sel) s = .next (s.errorEntry 1))

/-- `FGET` (R143): the number of an element goes to `DOUT`. -/
def Obligations.FgetReadsTheNumber : Prop :=
  ∀ (a : FIdx) (s : State),
    encode (.fget a) = word 0x11 0 a 0 0 ∧
    (∀ A, s.F[a] = some A → exec (.fget a) s = .next { s with dout := A.num, busy := false, done := true }) ∧
    (s.F[a] = none → exec (.fget a) s = .next (s.errorEntry 6))

/-- `FADD` (R144): the sum modulo the prime. -/
def Obligations.FaddWritesTheSum : Prop := binaryFieldRule .fadd 0x12 fun x y => x + y

/-- `FSUB` (R145): the difference modulo the prime, never negative. -/
def Obligations.FsubWritesTheDifference : Prop := binaryFieldRule .fsub 0x13 fun x y => x - y

/-- `FMUL` (R146): the product modulo the prime, from the full product. -/
def Obligations.FmulWritesTheProduct : Prop := binaryFieldRule .fmul 0x14 fun x y => x * y

/-- `FPOW` (R147): the exponent is `K`, or `(-K) mod (p - 1)` when `NEG` is set; `a ^ 0 = 1` also for `a = 0`. -/
def Obligations.FpowWritesThePower : Prop :=
  ∀ (d a : FIdx) (neg : Bool) (s : State),
    encode (.fpow d a neg) = word 0x15 d a 0 (if neg then 1 else 0) ∧
    (∀ (A : FieldRec) (p : Nat), s.F[a] = some A → primeOf s A.m = some p → 2 ≤ p →
      ∃ (e : Nat) (r : Value),
        (neg = false → e = s.K.toNat) ∧
        (neg = true → (e : Int) = (-(s.K.toNat : Int)) % ((p : Int) - 1)) ∧
        r.toNat = A.num.toNat ^ e % p ∧
        exec (.fpow d a neg) s = .next (wroteF s d { m := A.m, num := r })) ∧
    (s.F[a] = none → exec (.fpow d a neg) s = .next (s.errorEntry 6))

/-- `FINV` (R148): the Fermat power; `DivisionByZeroError` for 0. -/
def Obligations.FinvWritesTheFermatPower : Prop :=
  ∀ (d a : FIdx) (s : State),
    encode (.finv d a) = word 0x16 d a 0 0 ∧
    (∀ (A : FieldRec) (p : Nat), s.F[a] = some A → primeOf s A.m = some p → 2 ≤ p → A.num ≠ 0 →
      ∃ r : Value, r.toNat = A.num.toNat ^ (p - 2) % p ∧
        exec (.finv d a) s = .next (wroteF s d { m := A.m, num := r })) ∧
    (s.F[a] = none → exec (.finv d a) s = .next (s.errorEntry 6)) ∧
    (∀ (A : FieldRec) (p : Nat), s.F[a] = some A → primeOf s A.m = some p → A.num = 0 →
      exec (.finv d a) s = .next (s.errorEntry 5))

/-- `FDIV` (R149): `a * b^(p-2) mod p`; the mismatch is checked before the zero divisor. -/
def Obligations.FdivWritesTheQuotient : Prop :=
  ∀ (d a b : FIdx) (s : State),
    encode (.fdiv d a b) = word 0x17 d a b 0 ∧
    (∀ (A B : FieldRec) (p : Nat), s.F[a] = some A → s.F[b] = some B →
      primeOf s A.m = some p → primeOf s B.m = some p → 2 ≤ p → B.num ≠ 0 →
      ∃ r : Value, r.toNat = A.num.toNat * B.num.toNat ^ (p - 2) % p ∧
        exec (.fdiv d a b) s = .next (wroteF s d { m := A.m, num := r })) ∧
    (s.F[a] = none ∨ s.F[b] = none → exec (.fdiv d a b) s = .next (s.errorEntry 6)) ∧
    (∀ (A B : FieldRec) (p q : Nat), s.F[a] = some A → s.F[b] = some B →
      primeOf s A.m = some p → primeOf s B.m = some q →
      (p ≠ q → exec (.fdiv d a b) s = .next (s.errorEntry 3)) ∧
      (p = q → B.num = 0 → exec (.fdiv d a b) s = .next (s.errorEntry 5)))

/-- `FEQ` (R152): structural equality on the number and the prime, compared as numbers; no mismatch error. -/
def Obligations.FeqComparesNumberAndPrime : Prop :=
  ∀ (a b : FIdx) (s : State),
    encode (.feq a b) = word 0x18 0 a b 0 ∧
    (∀ A B : FieldRec, s.F[a] = some A → s.F[b] = some B →
      ∃ q : Bool, (q = true ↔ A.num = B.num ∧ primeOf s A.m = primeOf s B.m) ∧
        exec (.feq a b) s = .next { s with eqFlag := q, busy := false, done := true }) ∧
    (s.F[a] = none ∨ s.F[b] = none → exec (.feq a b) s = .next (s.errorEntry 6))

/-- The inverse laws (R150, R148, R149) for a prime modulus: the product of an element and what `FINV` writes for it is
1, and what `FDIV` writes times the divisor is the dividend. -/
def Obligations.InverseLaws : Prop :=
  ∀ (d a b : FIdx) (s : State) (A B : FieldRec) (p : Nat), s.F[a] = some A → s.F[b] = some B →
    primeOf s A.m = some p → primeOf s B.m = some p → p.Prime → A.num.toNat < p → B.num.toNat < p → B.num ≠ 0 →
    (∃ r : Value, exec (.finv d b) s = .next (wroteF s d { m := B.m, num := r }) ∧
      B.num.toNat * r.toNat % p = 1) ∧
    (∃ r : Value, exec (.fdiv d a b) s = .next (wroteF s d { m := A.m, num := r }) ∧
      r.toNat * B.num.toNat % p = A.num.toNat)

/-! ### Point commands -/

/-- `PCONS` (R183): a point of the slot of `x`, only where it lies on the curve; errors in the rule's order. -/
def Obligations.PconsValidates : Prop :=
  ∀ (d : PIdx) (a b : FIdx) (s : State),
    encode (.pcons d a b) = word 0x20 d a b 0 ∧
    (∀ (X Y : FieldRec) (cv : Curve), s.F[a] = some X → s.F[b] = some Y → curveOf s X.m = some cv →
      (primeOf s Y.m = some cv.p →
        (Y.num.toNat * Y.num.toNat % cv.p =
            (X.num.toNat * X.num.toNat * X.num.toNat + cv.a * X.num.toNat + cv.b) % cv.p →
          exec (.pcons d a b) s = .next (wroteP s d { c := X.m, pt := .finite X.num Y.num })) ∧
        (Y.num.toNat * Y.num.toNat % cv.p ≠
            (X.num.toNat * X.num.toNat * X.num.toNat + cv.a * X.num.toNat + cv.b) % cv.p →
          exec (.pcons d a b) s = .next (s.errorEntry 2))) ∧
      (∀ q, primeOf s Y.m = some q → cv.p ≠ q → exec (.pcons d a b) s = .next (s.errorEntry 3))) ∧
    (s.F[a] = none ∨ s.F[b] = none → exec (.pcons d a b) s = .next (s.errorEntry 6)) ∧
    (∀ X Y : FieldRec, s.F[a] = some X → s.F[b] = some Y → X.m = .prog → s.curve0 = none →
      exec (.pcons d a b) s = .next (s.errorEntry 6))

/-- `PINF` (R184): the point at infinity of a slot that has a curve. -/
def Obligations.PinfConstructs : Prop :=
  ∀ (d : PIdx) (sel : Slot) (s : State),
    encode (.pinf d sel) = word 0x21 d 0 0 (if sel = .secp then 1 else 0) ∧
    (sel = .secp ∨ s.curve0.isSome = true →
      exec (.pinf d sel) s = .next (wroteP s d { c := sel, pt := .infinity })) ∧
    (sel = .prog → s.curve0 = none → exec (.pinf d sel) s = .next (s.errorEntry 6))

/-- `PGETX` and `PGETY` (R185, R186): a coordinate with the point's slot; `AbsentValueError` for infinity. -/
def Obligations.CoordinatesAreRead : Prop :=
  ∀ (d : FIdx) (a : PIdx) (s : State),
    encode (.pgetx d a) = word 0x23 d a 0 0 ∧ encode (.pgety d a) = word 0x24 d a 0 0 ∧
    (∀ (A : PointRec) (x y : Value), s.P[a] = some A → A.pt = .finite x y →
      exec (.pgetx d a) s = .next (wroteF s d { m := A.c, num := x }) ∧
      exec (.pgety d a) s = .next (wroteF s d { m := A.c, num := y })) ∧
    (s.P[a] = none ∨ (∃ A, s.P[a] = some A ∧ A.pt = .infinity) →
      exec (.pgetx d a) s = .next (s.errorEntry 6) ∧ exec (.pgety d a) s = .next (s.errorEntry 6))

/-- `PTEST` (R187): `INF` says whether the point is the identity. -/
def Obligations.PtestTestsForInfinity : Prop :=
  ∀ (a : PIdx) (s : State),
    encode (.ptest a) = word 0x29 0 a 0 0 ∧
    (∀ A : PointRec, s.P[a] = some A →
      ∃ q : Bool, (q = true ↔ A.pt = .infinity) ∧
        exec (.ptest a) s = .next { s with infFlag := q, busy := false, done := true }) ∧
    (s.P[a] = none → exec (.ptest a) s = .next (s.errorEntry 6))

/-- `PEQ` (R188): the same curve as numbers, and both infinite or both finite with equal coordinates. -/
def Obligations.PeqComparesPoints : Prop :=
  ∀ (a b : PIdx) (s : State),
    encode (.peq a b) = word 0x28 0 a b 0 ∧
    (∀ A B : PointRec, s.P[a] = some A → s.P[b] = some B →
      ∃ q : Bool,
        (q = true ↔ curveOf s A.c = curveOf s B.c ∧
          ((A.pt = .infinity ∧ B.pt = .infinity) ∨
            ∃ x1 y1 x2 y2, A.pt = .finite x1 y1 ∧ B.pt = .finite x2 y2 ∧ x1 = x2 ∧ y1 = y2)) ∧
        exec (.peq a b) s = .next { s with eqFlag := q, busy := false, done := true }) ∧
    (s.P[a] = none ∨ s.P[b] = none → exec (.peq a b) s = .next (s.errorEntry 6))

/-- `PADD` (R189) by the six cases of the group law (R182). -/
def Obligations.PaddFollowsSixCases : Prop :=
  ∀ (d a b : PIdx) (s : State),
    encode (.padd d a b) = word 0x25 d a b 0 ∧
    (s.P[a] = none ∨ s.P[b] = none → exec (.padd d a b) s = .next (s.errorEntry 6)) ∧
    ∀ A B : PointRec, s.P[a] = some A → s.P[b] = some B →
      (curveOf s A.c ≠ curveOf s B.c → exec (.padd d a b) s = .next (s.errorEntry 4)) ∧
      ∀ cv : Curve, curveOf s A.c = some cv → curveOf s B.c = some cv → 2 ≤ cv.p →
        (A.pt = .infinity → exec (.padd d a b) s = .next (wroteP s d B)) ∧
        (A.pt ≠ .infinity → B.pt = .infinity → exec (.padd d a b) s = .next (wroteP s d A)) ∧
        ∀ x1 y1 x2 y2 : Value, A.pt = .finite x1 y1 → B.pt = .finite x2 y2 →
          (x1 = x2 → y1 ≠ y2 →
            exec (.padd d a b) s = .next (wroteP s d { c := A.c, pt := .infinity })) ∧
          (x1 ≠ x2 → x1.toNat < cv.p → x2.toNat < cv.p → ∃ x3 y3 : Value,
            thirdPointOf (chordSlope x1 y1 x2 y2 cv.p) x1 y1 x2 cv.p x3 y3 ∧
            exec (.padd d a b) s = .next (wroteP s d { c := A.c, pt := .finite x3 y3 })) ∧
          (x1 = x2 → y1 = y2 → y1 = 0 →
            exec (.padd d a b) s = .next (wroteP s d { c := A.c, pt := .infinity })) ∧
          (x1 = x2 → y1 = y2 → y1 ≠ 0 → 2 * y1.toNat % cv.p = 0 →
            exec (.padd d a b) s = .next (s.errorEntry 5)) ∧
          (x1 = x2 → y1 = y2 → y1 ≠ 0 → 2 * y1.toNat % cv.p ≠ 0 → ∃ x3 y3 : Value,
            thirdPointOf (tangentSlope x1 y1 cv) x1 y1 x1 cv.p x3 y3 ∧
            exec (.padd d a b) s = .next (wroteP s d { c := A.c, pt := .finite x3 y3 }))

/-- `PDBL` (R190): the same result and errors as `PADD Pd, Ps, Ps`, in the cases the rule unfolds. -/
def Obligations.PdblDoubles : Prop :=
  ∀ (d a : PIdx) (s : State),
    encode (.pdbl d a) = word 0x26 d a 0 0 ∧
    exec (.pdbl d a) s = exec (.padd d a a) s ∧
    (s.P[a] = none → exec (.pdbl d a) s = .next (s.errorEntry 6)) ∧
    ∀ (A : PointRec) (cv : Curve), s.P[a] = some A → curveOf s A.c = some cv → 2 ≤ cv.p →
      (A.pt = .infinity → exec (.pdbl d a) s = .next (wroteP s d A)) ∧
      ∀ x1 y1 : Value, A.pt = .finite x1 y1 →
        (y1 = 0 → exec (.pdbl d a) s = .next (wroteP s d { c := A.c, pt := .infinity })) ∧
        (y1 ≠ 0 → 2 * y1.toNat % cv.p = 0 → exec (.pdbl d a) s = .next (s.errorEntry 5)) ∧
        (y1 ≠ 0 → 2 * y1.toNat % cv.p ≠ 0 → ∃ x3 y3 : Value,
          thirdPointOf (tangentSlope x1 y1 cv) x1 y1 x1 cv.p x3 y3 ∧
          exec (.pdbl d a) s = .next (wroteP s d { c := A.c, pt := .finite x3 y3 }))

/-- `PMUL` (R221) runs the loop of R220 on `K`, reduced modulo `N_SECP` for a slot-1 point; what the loop raises, the
command raises.
The digits of `N_SECP` are general knowledge of the spec (G1, log entry 10). -/
def Obligations.PmulRunsTheLoop : Prop :=
  ∀ (d a : PIdx) (s : State),
    encode (.pmul d a) = word 0x27 d a 0 0 ∧
    (s.P[a] = none → exec (.pmul d a) s = .next (s.errorEntry 6)) ∧
    ∀ A : PointRec, s.P[a] = some A →
      (∀ R : PointRec, smulWhile s (scalarOf s A) { c := A.c, pt := .infinity } A = .ok R →
        exec (.pmul d a) s = .next (wroteP s d R)) ∧
      (∀ e : ErrorKind, smulWhile s (scalarOf s A) { c := A.c, pt := .infinity } A = .error e →
        exec (.pmul d a) s = .next (s.errorEntry e.code))

/-- `PMUL` completes for every odd modulus; for any modulus the one error its loop can raise is `DivisionByZeroError`,
since every inner operand carries the curve of the point (R221). -/
def Obligations.PmulCompletesForOddModulus : Prop :=
  ∀ (d a : PIdx) (s : State) (A : PointRec) (cv : Curve), s.Inv → s.P[a] = some A → curveOf s A.c = some cv →
    (cv.p % 2 = 1 → ∃ R : PointRec, curveOf s R.c = some cv ∧ exec (.pmul d a) s = .next (wroteP s d R)) ∧
    ((∃ R : PointRec, curveOf s R.c = some cv ∧ exec (.pmul d a) s = .next (wroteP s d R)) ∨
      exec (.pmul d a) s = .next (s.errorEntry 5))

/-- Doubling consistency (R222): multiplying by 2 is doubling, for every odd modulus. -/
def Obligations.PmulByTwoIsPdbl : Prop :=
  ∀ (d a : PIdx) (s : State) (A : PointRec) (cv : Curve), s.Inv → s.P[a] = some A → curveOf s A.c = some cv →
    cv.p % 2 = 1 → s.K = 2 → exec (.pmul d a) s = exec (.pdbl d a) s

/-- For a prime modulus `PADD` of two points of a curve writes a point of that curve (R191: "`padd` returns a point
that satisfies `on_curve` whenever its operands do"); only for the modulus 2, where twice a number vanishes, it may
raise `DivisionByZeroError` instead (R182). -/
def Obligations.PaddStaysOnTheCurve : Prop :=
  ∀ (d a b : PIdx) (s : State) (A B : PointRec) (cv : Curve), s.P[a] = some A → s.P[b] = some B →
    curveOf s A.c = some cv → curveOf s B.c = some cv → cv.p.Prime → OnCurve cv A.pt → OnCurve cv B.pt →
    (cv.p = 2 ∧ exec (.padd d a b) s = .next (s.errorEntry 5)) ∨
    ∃ R : PointRec, curveOf s R.c = some cv ∧ OnCurve cv R.pt ∧
      exec (.padd d a b) s = .next (wroteP s d R)

/-- For a prime modulus the group law is commutative on points of one curve (R191): `PADD` with its sources exchanged
writes the same point. -/
def Obligations.PaddCommutes : Prop :=
  ∀ (d a b : PIdx) (s : State) (A B : PointRec) (cv : Curve), s.P[a] = some A → s.P[b] = some B → A.c = B.c →
    curveOf s A.c = some cv → cv.p.Prime → OnCurve cv A.pt → OnCurve cv B.pt →
    exec (.padd d a b) s = exec (.padd d b a) s

/-- Identity and inverse (R189): a point plus the point at infinity is the point, and a finite point plus the point with
the same `x` and the negated `y` is infinity, for every curve and modulus (`2y = p`, which only an even modulus admits,
apart). -/
def Obligations.PaddIdentityAndInverse : Prop :=
  ∀ (d a b : PIdx) (s : State) (A B : PointRec) (cv : Curve), s.P[a] = some A → s.P[b] = some B → A.c = B.c →
    curveOf s A.c = some cv → OnCurve cv A.pt →
    (B.pt = .infinity →
      exec (.padd d a b) s = .next (wroteP s d A) ∧ exec (.padd d b a) s = .next (wroteP s d A)) ∧
    (∀ x y z : Value, A.pt = .finite x y → B.pt = .finite x z → z.toNat < cv.p → (y.toNat + z.toNat) % cv.p = 0 →
      2 * y.toNat ≠ cv.p →
      exec (.padd d a b) s = .next (wroteP s d { c := A.c, pt := .infinity }) ∧
      exec (.padd d b a) s = .next (wroteP s d { c := A.c, pt := .infinity }))

/-- For an odd prime modulus and a non-singular curve the group law is associative (R191). -/
def Obligations.PaddAssociates : Prop :=
  ∀ (s : State) (A B C : PointRec) (cv : Curve), A.c = B.c → B.c = C.c → curveOf s A.c = some cv →
    cv.p.Prime → cv.p % 2 = 1 → (4 * cv.a ^ 3 + 27 * cv.b ^ 2) % cv.p ≠ 0 →
    OnCurve cv A.pt → OnCurve cv B.pt → OnCurve cv C.pt →
    ∃ AB BC R : PointRec, padd s A B = .ok AB ∧ padd s B C = .ok BC ∧ padd s AB C = .ok R ∧ padd s A BC = .ok R
end

