-- ==== Sys2Proof/Laws/Arith.lean ====
section
/-! SUPPORT. What the integer functions compute: the power loop is the power, every remainder is below the
modulus, and the narrowed results are exact. -/

namespace Sys2Proof.Machine

theorem lt_two_pow_bitlen (k : Nat) : k < 2 ^ bitlen k := by
  unfold bitlen
  split
  · simp_all
  · exact Nat.lt_log2_self

/-- The loop of square and multiply, for enough runs, multiplies the accumulator by the power. -/
theorem powLoop_eq (p : Nat) : ∀ (n base e acc : Nat), e < 2 ^ n → acc < p →
    powLoop p n base e acc = acc * base ^ e % p
  | 0, base, e, acc, he, hacc => by
    have : e = 0 := by simpa using he
    simp [powLoop, this, Nat.mod_eq_of_lt hacc]
  | n + 1, base, e, acc, he, hacc => by
    have hp : 0 < p := Nat.lt_of_le_of_lt (Nat.zero_le _) hacc
    have he2 : e / 2 < 2 ^ n := by rw [Nat.pow_succ] at he; omega
    have hbase : (base * base % p) ^ (e / 2) % p = base ^ (2 * (e / 2)) % p := by
      rw [← Nat.pow_mod, ← pow_two, ← pow_mul]
    unfold powLoop
    split
    next hodd =>
      rw [powLoop_eq p n _ _ _ he2 (Nat.mod_lt _ hp), Nat.mul_mod, hbase, ← Nat.mul_mod]
      have h : e = 2 * (e / 2) + 1 := by omega
      conv_rhs => rw [h, pow_succ]
      rw [Nat.mul_mod (acc * base % p), Nat.mod_mod, ← Nat.mul_mod]
      ring_nf
    next heven =>
      rw [powLoop_eq p n _ _ _ he2 hacc, Nat.mul_mod, hbase, ← Nat.mul_mod]
      have h : e = 2 * (e / 2) := by omega
      conv_rhs => rw [h]

/-- `fpow` is the power of R140: `(a ^ e) mod p`. -/
theorem fpow_eq (a e p : Nat) (hp : 0 < p) : fpow a e p = a ^ e % p := by
  unfold fpow
  by_cases h1 : p = 1
  · subst h1
    have : ∀ n base e, powLoop 1 n base e 0 = 0 := by
      intro n
      induction n with
      | zero => intros; rfl
      | succ n ih => intros; simp [powLoop, Nat.mod_one, ih]
    simp [Nat.mod_one, this]
  · have h2 : 1 < p := by omega
    rw [Nat.mod_eq_of_lt h2, powLoop_eq p _ _ _ _ (lt_two_pow_bitlen e) h2, one_mul, ← Nat.pow_mod]

theorem finv_eq (b p : Nat) (hp : 0 < p) : finv b p = b ^ (p - 2) % p := fpow_eq b (p - 2) p hp

theorem fdiv_eq (a b p : Nat) (hp : 0 < p) : fdiv a b p = a * b ^ (p - 2) % p := by
  simp [fdiv, fmul, finv_eq _ _ hp, Nat.mul_mod]

/-- `modInt` is the Euclidean remainder (R8). -/
theorem modInt_cast (z : Int) (p : Nat) (hp : 0 < p) : (modInt z p : Int) = z % (p : Int) :=
  Int.toNat_of_nonneg (Int.emod_nonneg _ (by omega))

theorem modInt_lt (z : Int) (p : Nat) (hp : 0 < p) : modInt z p < p := by
  have h := Int.emod_lt_of_pos z (b := (p : Int)) (by omega)
  have := modInt_cast z p hp
  omega

theorem fadd_lt (a b p : Nat) (hp : 0 < p) : fadd a b p < p := Nat.mod_lt _ hp

theorem fsub_lt (a b p : Nat) (hp : 0 < p) : fsub a b p < p := modInt_lt _ p hp

theorem fmul_lt (a b p : Nat) (hp : 0 < p) : fmul a b p < p := Nat.mod_lt _ hp

theorem fpow_lt (a e p : Nat) (hp : 0 < p) : fpow a e p < p := by
  rw [fpow_eq _ _ _ hp]; exact Nat.mod_lt _ hp

theorem fdiv_lt (a b p : Nat) (hp : 0 < p) : fdiv a b p < p := fmul_lt _ _ p hp

/-- The exponent of a negative power lies below `p - 1` (R147). -/
theorem exponentOf_neg (k p : Nat) (hp : 2 ≤ p) :
    ((exponentOf k true p : Nat) : Int) = (-(k : Int)) % ((p : Int) - 1) := by
  rw [exponentOf, if_pos rfl, modInt_cast _ _ (by omega)]
  congr 1
  omega

/-- A number below a modulus of 256 bits is held exactly. -/
theorem toNat_ofNat_of_lt {n p : Nat} (h : n < p) (hp : p ≤ 2 ^ 256) : (BitVec.ofNat 256 n).toNat = n := by
  rw [BitVec.toNat_ofNat, Nat.mod_eq_of_lt (Nat.lt_of_lt_of_le h hp)]

theorem pSecp_lt : pSecp < 2 ^ 256 := by decide

theorem two_le_pSecp : 2 ≤ pSecp := by decide

/-- The coordinates of `thirdPoint` (R182), held exactly. -/
theorem thirdPoint_eq (sl x1 y1 x2 p : Nat) (hp : 0 < p) (hw : p ≤ 2 ^ 256) :
    ∃ x3 y3 : Value, thirdPoint sl x1 y1 x2 p = .finite x3 y3 ∧ x3.toNat < p ∧ y3.toNat < p ∧
      (x3.toNat : Int) = ((sl : Int) * sl - x1 - x2) % p ∧
      (y3.toNat : Int) = ((sl : Int) * ((x1 : Int) - x3.toNat) - y1) % p := by
  refine ⟨_, _, rfl, ?_⟩
  rw [toNat_ofNat_of_lt (modInt_lt _ _ hp) hw, toNat_ofNat_of_lt (modInt_lt _ _ hp) hw,
    modInt_cast _ _ hp, modInt_cast _ _ hp]
  exact ⟨modInt_lt _ _ hp, modInt_lt _ _ hp, rfl, rfl⟩

/-- What the sum of two finite points can be (R182 cases 3 to 6): infinity, a finite point in range, or an error of
division by zero, the last only where twice a non-zero `y` vanishes. -/
theorem addFinite_cases (cv : Curve) (x1 y1 x2 y2 : Nat) (hp : 0 < cv.p) (hw : cv.p ≤ 2 ^ 256) :
    addFinite cv x1 y1 x2 y2 = .ok .infinity ∨
    (∃ x3 y3 : Value, addFinite cv x1 y1 x2 y2 = .ok (.finite x3 y3) ∧ x3.toNat < cv.p ∧ y3.toNat < cv.p) ∨
    (addFinite cv x1 y1 x2 y2 = .error .divisionByZero ∧ x1 = x2 ∧ y1 = y2 ∧ y1 ≠ 0 ∧ 2 * y1 % cv.p = 0) := by
  unfold addFinite
  split
  · exact .inl rfl
  · split
    · obtain ⟨x3, y3, h, hx, hy, -⟩ := thirdPoint_eq (fdiv (fsub y2 y1 cv.p) (fsub x2 x1 cv.p) cv.p) x1 y1 x2 cv.p hp hw
      exact .inr (.inl ⟨x3, y3, by rw [chord, h], hx, hy⟩)
    · split
      · exact .inl rfl
      · unfold tangent
        split
        · exact .inr (.inr ⟨rfl, by tauto⟩)
        · obtain ⟨x3, y3, h, hx, hy, -⟩ :=
            thirdPoint_eq (fdiv ((3 * x1 * x1 + cv.a) % cv.p) (2 * y1 % cv.p) cv.p) x1 y1 x1 cv.p hp hw
          exact .inr (.inl ⟨x3, y3, by rw [h], hx, hy⟩)

end Sys2Proof.Machine
end

