-- ==== Sys2Proof/Laws/State.lean ====
section
/-! SUPPORT. What each named update does to each field of the state: one lemma per field and update, true by
definition, so that no proof unfolds a record update. -/

namespace Sys2Proof.Machine

@[simp] theorem State.writeF_F (s : State) (rd : FIdx) (m : Slot) (n : Nat) : (s.writeF rd m n).F = s.F.set rd (some { m, num := BitVec.ofNat 256 n }) := rfl
@[simp] theorem State.writeF_P (s : State) (rd : FIdx) (m : Slot) (n : Nat) : (s.writeF rd m n).P = s.P := rfl
@[simp] theorem State.writeF_pmod (s : State) (rd : FIdx) (m : Slot) (n : Nat) : (s.writeF rd m n).pmod = s.pmod := rfl
@[simp] theorem State.writeF_curve0 (s : State) (rd : FIdx) (m : Slot) (n : Nat) : (s.writeF rd m n).curve0 = s.curve0 := rfl
@[simp] theorem State.writeF_K (s : State) (rd : FIdx) (m : Slot) (n : Nat) : (s.writeF rd m n).K = s.K := rfl
@[simp] theorem State.writeF_dinl (s : State) (rd : FIdx) (m : Slot) (n : Nat) : (s.writeF rd m n).dinl = s.dinl := rfl
@[simp] theorem State.writeF_dinh (s : State) (rd : FIdx) (m : Slot) (n : Nat) : (s.writeF rd m n).dinh = s.dinh := rfl
@[simp] theorem State.writeF_dout (s : State) (rd : FIdx) (m : Slot) (n : Nat) : (s.writeF rd m n).dout = s.dout := rfl
@[simp] theorem State.writeF_busy (s : State) (rd : FIdx) (m : Slot) (n : Nat) : (s.writeF rd m n).busy = s.busy := rfl
@[simp] theorem State.writeF_done (s : State) (rd : FIdx) (m : Slot) (n : Nat) : (s.writeF rd m n).done = s.done := rfl
@[simp] theorem State.writeF_err (s : State) (rd : FIdx) (m : Slot) (n : Nat) : (s.writeF rd m n).err = s.err := rfl
@[simp] theorem State.writeF_ovr (s : State) (rd : FIdx) (m : Slot) (n : Nat) : (s.writeF rd m n).ovr = s.ovr := rfl
@[simp] theorem State.writeF_eqFlag (s : State) (rd : FIdx) (m : Slot) (n : Nat) : (s.writeF rd m n).eqFlag = s.eqFlag := rfl
@[simp] theorem State.writeF_infFlag (s : State) (rd : FIdx) (m : Slot) (n : Nat) : (s.writeF rd m n).infFlag = s.infFlag := rfl
@[simp] theorem State.writeF_errCode (s : State) (rd : FIdx) (m : Slot) (n : Nat) : (s.writeF rd m n).errCode = s.errCode := rfl
@[simp] theorem State.writeF_ieDone (s : State) (rd : FIdx) (m : Slot) (n : Nat) : (s.writeF rd m n).ieDone = s.ieDone := rfl
@[simp] theorem State.writeF_ieErr (s : State) (rd : FIdx) (m : Slot) (n : Nat) : (s.writeF rd m n).ieErr = s.ieErr := rfl
@[simp] theorem State.writeF_errCmd (s : State) (rd : FIdx) (m : Slot) (n : Nat) : (s.writeF rd m n).errCmd = s.errCmd := rfl
@[simp] theorem State.writeF_cmdLatch (s : State) (rd : FIdx) (m : Slot) (n : Nat) : (s.writeF rd m n).cmdLatch = s.cmdLatch := rfl
@[simp] theorem State.writeF_events (s : State) (rd : FIdx) (m : Slot) (n : Nat) : (s.writeF rd m n).events = s.events := rfl
@[simp] theorem State.writeF_readLog (s : State) (rd : FIdx) (m : Slot) (n : Nat) : (s.writeF rd m n).readLog = s.readLog := rfl

@[simp] theorem State.writeP_F (s : State) (rd : PIdx) (r : PointRec) : (s.writeP rd r).F = s.F := rfl
@[simp] theorem State.writeP_P (s : State) (rd : PIdx) (r : PointRec) : (s.writeP rd r).P = s.P.set rd (some r) := rfl
@[simp] theorem State.writeP_pmod (s : State) (rd : PIdx) (r : PointRec) : (s.writeP rd r).pmod = s.pmod := rfl
@[simp] theorem State.writeP_curve0 (s : State) (rd : PIdx) (r : PointRec) : (s.writeP rd r).curve0 = s.curve0 := rfl
@[simp] theorem State.writeP_K (s : State) (rd : PIdx) (r : PointRec) : (s.writeP rd r).K = s.K := rfl
@[simp] theorem State.writeP_dinl (s : State) (rd : PIdx) (r : PointRec) : (s.writeP rd r).dinl = s.dinl := rfl
@[simp] theorem State.writeP_dinh (s : State) (rd : PIdx) (r : PointRec) : (s.writeP rd r).dinh = s.dinh := rfl
@[simp] theorem State.writeP_dout (s : State) (rd : PIdx) (r : PointRec) : (s.writeP rd r).dout = s.dout := rfl
@[simp] theorem State.writeP_busy (s : State) (rd : PIdx) (r : PointRec) : (s.writeP rd r).busy = s.busy := rfl
@[simp] theorem State.writeP_done (s : State) (rd : PIdx) (r : PointRec) : (s.writeP rd r).done = s.done := rfl
@[simp] theorem State.writeP_err (s : State) (rd : PIdx) (r : PointRec) : (s.writeP rd r).err = s.err := rfl
@[simp] theorem State.writeP_ovr (s : State) (rd : PIdx) (r : PointRec) : (s.writeP rd r).ovr = s.ovr := rfl
@[simp] theorem State.writeP_eqFlag (s : State) (rd : PIdx) (r : PointRec) : (s.writeP rd r).eqFlag = s.eqFlag := rfl
@[simp] theorem State.writeP_infFlag (s : State) (rd : PIdx) (r : PointRec) : (s.writeP rd r).infFlag = s.infFlag := rfl
@[simp] theorem State.writeP_errCode (s : State) (rd : PIdx) (r : PointRec) : (s.writeP rd r).errCode = s.errCode := rfl
@[simp] theorem State.writeP_ieDone (s : State) (rd : PIdx) (r : PointRec) : (s.writeP rd r).ieDone = s.ieDone := rfl
@[simp] theorem State.writeP_ieErr (s : State) (rd : PIdx) (r : PointRec) : (s.writeP rd r).ieErr = s.ieErr := rfl
@[simp] theorem State.writeP_errCmd (s : State) (rd : PIdx) (r : PointRec) : (s.writeP rd r).errCmd = s.errCmd := rfl
@[simp] theorem State.writeP_cmdLatch (s : State) (rd : PIdx) (r : PointRec) : (s.writeP rd r).cmdLatch = s.cmdLatch := rfl
@[simp] theorem State.writeP_events (s : State) (rd : PIdx) (r : PointRec) : (s.writeP rd r).events = s.events := rfl
@[simp] theorem State.writeP_readLog (s : State) (rd : PIdx) (r : PointRec) : (s.writeP rd r).readLog = s.readLog := rfl

@[simp] theorem State.setModulus_F (s : State) (v : Value) : (s.setModulus v).F = s.F.map keepSecpF := rfl
@[simp] theorem State.setModulus_P (s : State) (v : Value) : (s.setModulus v).P = s.P.map keepSecpP := rfl
@[simp] theorem State.setModulus_pmod (s : State) (v : Value) : (s.setModulus v).pmod = some v := rfl
@[simp] theorem State.setModulus_curve0 (s : State) (v : Value) : (s.setModulus v).curve0 = none := rfl
@[simp] theorem State.setModulus_K (s : State) (v : Value) : (s.setModulus v).K = s.K := rfl
@[simp] theorem State.setModulus_dinl (s : State) (v : Value) : (s.setModulus v).dinl = s.dinl := rfl
@[simp] theorem State.setModulus_dinh (s : State) (v : Value) : (s.setModulus v).dinh = s.dinh := rfl
@[simp] theorem State.setModulus_dout (s : State) (v : Value) : (s.setModulus v).dout = s.dout := rfl
@[simp] theorem State.setModulus_busy (s : State) (v : Value) : (s.setModulus v).busy = s.busy := rfl
@[simp] theorem State.setModulus_done (s : State) (v : Value) : (s.setModulus v).done = s.done := rfl
@[simp] theorem State.setModulus_err (s : State) (v : Value) : (s.setModulus v).err = s.err := rfl
@[simp] theorem State.setModulus_ovr (s : State) (v : Value) : (s.setModulus v).ovr = s.ovr := rfl
@[simp] theorem State.setModulus_eqFlag (s : State) (v : Value) : (s.setModulus v).eqFlag = s.eqFlag := rfl
@[simp] theorem State.setModulus_infFlag (s : State) (v : Value) : (s.setModulus v).infFlag = s.infFlag := rfl
@[simp] theorem State.setModulus_errCode (s : State) (v : Value) : (s.setModulus v).errCode = s.errCode := rfl
@[simp] theorem State.setModulus_ieDone (s : State) (v : Value) : (s.setModulus v).ieDone = s.ieDone := rfl
@[simp] theorem State.setModulus_ieErr (s : State) (v : Value) : (s.setModulus v).ieErr = s.ieErr := rfl
@[simp] theorem State.setModulus_errCmd (s : State) (v : Value) : (s.setModulus v).errCmd = s.errCmd := rfl
@[simp] theorem State.setModulus_cmdLatch (s : State) (v : Value) : (s.setModulus v).cmdLatch = s.cmdLatch := rfl
@[simp] theorem State.setModulus_events (s : State) (v : Value) : (s.setModulus v).events = s.events := rfl
@[simp] theorem State.setModulus_readLog (s : State) (v : Value) : (s.setModulus v).readLog = s.readLog := rfl

@[simp] theorem State.setCurve_F (s : State) (a b : Value) : (s.setCurve a b).F = s.F := rfl
@[simp] theorem State.setCurve_P (s : State) (a b : Value) : (s.setCurve a b).P = s.P.map keepSecpP := rfl
@[simp] theorem State.setCurve_pmod (s : State) (a b : Value) : (s.setCurve a b).pmod = s.pmod := rfl
@[simp] theorem State.setCurve_curve0 (s : State) (a b : Value) : (s.setCurve a b).curve0 = some { a, b } := rfl
@[simp] theorem State.setCurve_K (s : State) (a b : Value) : (s.setCurve a b).K = s.K := rfl
@[simp] theorem State.setCurve_dinl (s : State) (a b : Value) : (s.setCurve a b).dinl = s.dinl := rfl
@[simp] theorem State.setCurve_dinh (s : State) (a b : Value) : (s.setCurve a b).dinh = s.dinh := rfl
@[simp] theorem State.setCurve_dout (s : State) (a b : Value) : (s.setCurve a b).dout = s.dout := rfl
@[simp] theorem State.setCurve_busy (s : State) (a b : Value) : (s.setCurve a b).busy = s.busy := rfl
@[simp] theorem State.setCurve_done (s : State) (a b : Value) : (s.setCurve a b).done = s.done := rfl
@[simp] theorem State.setCurve_err (s : State) (a b : Value) : (s.setCurve a b).err = s.err := rfl
@[simp] theorem State.setCurve_ovr (s : State) (a b : Value) : (s.setCurve a b).ovr = s.ovr := rfl
@[simp] theorem State.setCurve_eqFlag (s : State) (a b : Value) : (s.setCurve a b).eqFlag = s.eqFlag := rfl
@[simp] theorem State.setCurve_infFlag (s : State) (a b : Value) : (s.setCurve a b).infFlag = s.infFlag := rfl
@[simp] theorem State.setCurve_errCode (s : State) (a b : Value) : (s.setCurve a b).errCode = s.errCode := rfl
@[simp] theorem State.setCurve_ieDone (s : State) (a b : Value) : (s.setCurve a b).ieDone = s.ieDone := rfl
@[simp] theorem State.setCurve_ieErr (s : State) (a b : Value) : (s.setCurve a b).ieErr = s.ieErr := rfl
@[simp] theorem State.setCurve_errCmd (s : State) (a b : Value) : (s.setCurve a b).errCmd = s.errCmd := rfl
@[simp] theorem State.setCurve_cmdLatch (s : State) (a b : Value) : (s.setCurve a b).cmdLatch = s.cmdLatch := rfl
@[simp] theorem State.setCurve_events (s : State) (a b : Value) : (s.setCurve a b).events = s.events := rfl
@[simp] theorem State.setCurve_readLog (s : State) (a b : Value) : (s.setCurve a b).readLog = s.readLog := rfl

@[simp] theorem State.setK_F (s : State) (v : Value) : (s.setK v).F = s.F := rfl
@[simp] theorem State.setK_P (s : State) (v : Value) : (s.setK v).P = s.P := rfl
@[simp] theorem State.setK_pmod (s : State) (v : Value) : (s.setK v).pmod = s.pmod := rfl
@[simp] theorem State.setK_curve0 (s : State) (v : Value) : (s.setK v).curve0 = s.curve0 := rfl
@[simp] theorem State.setK_K (s : State) (v : Value) : (s.setK v).K = v := rfl
@[simp] theorem State.setK_dinl (s : State) (v : Value) : (s.setK v).dinl = s.dinl := rfl
@[simp] theorem State.setK_dinh (s : State) (v : Value) : (s.setK v).dinh = s.dinh := rfl
@[simp] theorem State.setK_dout (s : State) (v : Value) : (s.setK v).dout = s.dout := rfl
@[simp] theorem State.setK_busy (s : State) (v : Value) : (s.setK v).busy = s.busy := rfl
@[simp] theorem State.setK_done (s : State) (v : Value) : (s.setK v).done = s.done := rfl
@[simp] theorem State.setK_err (s : State) (v : Value) : (s.setK v).err = s.err := rfl
@[simp] theorem State.setK_ovr (s : State) (v : Value) : (s.setK v).ovr = s.ovr := rfl
@[simp] theorem State.setK_eqFlag (s : State) (v : Value) : (s.setK v).eqFlag = s.eqFlag := rfl
@[simp] theorem State.setK_infFlag (s : State) (v : Value) : (s.setK v).infFlag = s.infFlag := rfl
@[simp] theorem State.setK_errCode (s : State) (v : Value) : (s.setK v).errCode = s.errCode := rfl
@[simp] theorem State.setK_ieDone (s : State) (v : Value) : (s.setK v).ieDone = s.ieDone := rfl
@[simp] theorem State.setK_ieErr (s : State) (v : Value) : (s.setK v).ieErr = s.ieErr := rfl
@[simp] theorem State.setK_errCmd (s : State) (v : Value) : (s.setK v).errCmd = s.errCmd := rfl
@[simp] theorem State.setK_cmdLatch (s : State) (v : Value) : (s.setK v).cmdLatch = s.cmdLatch := rfl
@[simp] theorem State.setK_events (s : State) (v : Value) : (s.setK v).events = s.events := rfl
@[simp] theorem State.setK_readLog (s : State) (v : Value) : (s.setK v).readLog = s.readLog := rfl

@[simp] theorem State.setDout_F (s : State) (v : Value) : (s.setDout v).F = s.F := rfl
@[simp] theorem State.setDout_P (s : State) (v : Value) : (s.setDout v).P = s.P := rfl
@[simp] theorem State.setDout_pmod (s : State) (v : Value) : (s.setDout v).pmod = s.pmod := rfl
@[simp] theorem State.setDout_curve0 (s : State) (v : Value) : (s.setDout v).curve0 = s.curve0 := rfl
@[simp] theorem State.setDout_K (s : State) (v : Value) : (s.setDout v).K = s.K := rfl
@[simp] theorem State.setDout_dinl (s : State) (v : Value) : (s.setDout v).dinl = s.dinl := rfl
@[simp] theorem State.setDout_dinh (s : State) (v : Value) : (s.setDout v).dinh = s.dinh := rfl
@[simp] theorem State.setDout_dout (s : State) (v : Value) : (s.setDout v).dout = v := rfl
@[simp] theorem State.setDout_busy (s : State) (v : Value) : (s.setDout v).busy = s.busy := rfl
@[simp] theorem State.setDout_done (s : State) (v : Value) : (s.setDout v).done = s.done := rfl
@[simp] theorem State.setDout_err (s : State) (v : Value) : (s.setDout v).err = s.err := rfl
@[simp] theorem State.setDout_ovr (s : State) (v : Value) : (s.setDout v).ovr = s.ovr := rfl
@[simp] theorem State.setDout_eqFlag (s : State) (v : Value) : (s.setDout v).eqFlag = s.eqFlag := rfl
@[simp] theorem State.setDout_infFlag (s : State) (v : Value) : (s.setDout v).infFlag = s.infFlag := rfl
@[simp] theorem State.setDout_errCode (s : State) (v : Value) : (s.setDout v).errCode = s.errCode := rfl
@[simp] theorem State.setDout_ieDone (s : State) (v : Value) : (s.setDout v).ieDone = s.ieDone := rfl
@[simp] theorem State.setDout_ieErr (s : State) (v : Value) : (s.setDout v).ieErr = s.ieErr := rfl
@[simp] theorem State.setDout_errCmd (s : State) (v : Value) : (s.setDout v).errCmd = s.errCmd := rfl
@[simp] theorem State.setDout_cmdLatch (s : State) (v : Value) : (s.setDout v).cmdLatch = s.cmdLatch := rfl
@[simp] theorem State.setDout_events (s : State) (v : Value) : (s.setDout v).events = s.events := rfl
@[simp] theorem State.setDout_readLog (s : State) (v : Value) : (s.setDout v).readLog = s.readLog := rfl

@[simp] theorem State.setEq_F (s : State) (b : Bool) : (s.setEq b).F = s.F := rfl
@[simp] theorem State.setEq_P (s : State) (b : Bool) : (s.setEq b).P = s.P := rfl
@[simp] theorem State.setEq_pmod (s : State) (b : Bool) : (s.setEq b).pmod = s.pmod := rfl
@[simp] theorem State.setEq_curve0 (s : State) (b : Bool) : (s.setEq b).curve0 = s.curve0 := rfl
@[simp] theorem State.setEq_K (s : State) (b : Bool) : (s.setEq b).K = s.K := rfl
@[simp] theorem State.setEq_dinl (s : State) (b : Bool) : (s.setEq b).dinl = s.dinl := rfl
@[simp] theorem State.setEq_dinh (s : State) (b : Bool) : (s.setEq b).dinh = s.dinh := rfl
@[simp] theorem State.setEq_dout (s : State) (b : Bool) : (s.setEq b).dout = s.dout := rfl
@[simp] theorem State.setEq_busy (s : State) (b : Bool) : (s.setEq b).busy = s.busy := rfl
@[simp] theorem State.setEq_done (s : State) (b : Bool) : (s.setEq b).done = s.done := rfl
@[simp] theorem State.setEq_err (s : State) (b : Bool) : (s.setEq b).err = s.err := rfl
@[simp] theorem State.setEq_ovr (s : State) (b : Bool) : (s.setEq b).ovr = s.ovr := rfl
@[simp] theorem State.setEq_eqFlag (s : State) (b : Bool) : (s.setEq b).eqFlag = b := rfl
@[simp] theorem State.setEq_infFlag (s : State) (b : Bool) : (s.setEq b).infFlag = s.infFlag := rfl
@[simp] theorem State.setEq_errCode (s : State) (b : Bool) : (s.setEq b).errCode = s.errCode := rfl
@[simp] theorem State.setEq_ieDone (s : State) (b : Bool) : (s.setEq b).ieDone = s.ieDone := rfl
@[simp] theorem State.setEq_ieErr (s : State) (b : Bool) : (s.setEq b).ieErr = s.ieErr := rfl
@[simp] theorem State.setEq_errCmd (s : State) (b : Bool) : (s.setEq b).errCmd = s.errCmd := rfl
@[simp] theorem State.setEq_cmdLatch (s : State) (b : Bool) : (s.setEq b).cmdLatch = s.cmdLatch := rfl
@[simp] theorem State.setEq_events (s : State) (b : Bool) : (s.setEq b).events = s.events := rfl
@[simp] theorem State.setEq_readLog (s : State) (b : Bool) : (s.setEq b).readLog = s.readLog := rfl

@[simp] theorem State.setInf_F (s : State) (b : Bool) : (s.setInf b).F = s.F := rfl
@[simp] theorem State.setInf_P (s : State) (b : Bool) : (s.setInf b).P = s.P := rfl
@[simp] theorem State.setInf_pmod (s : State) (b : Bool) : (s.setInf b).pmod = s.pmod := rfl
@[simp] theorem State.setInf_curve0 (s : State) (b : Bool) : (s.setInf b).curve0 = s.curve0 := rfl
@[simp] theorem State.setInf_K (s : State) (b : Bool) : (s.setInf b).K = s.K := rfl
@[simp] theorem State.setInf_dinl (s : State) (b : Bool) : (s.setInf b).dinl = s.dinl := rfl
@[simp] theorem State.setInf_dinh (s : State) (b : Bool) : (s.setInf b).dinh = s.dinh := rfl
@[simp] theorem State.setInf_dout (s : State) (b : Bool) : (s.setInf b).dout = s.dout := rfl
@[simp] theorem State.setInf_busy (s : State) (b : Bool) : (s.setInf b).busy = s.busy := rfl
@[simp] theorem State.setInf_done (s : State) (b : Bool) : (s.setInf b).done = s.done := rfl
@[simp] theorem State.setInf_err (s : State) (b : Bool) : (s.setInf b).err = s.err := rfl
@[simp] theorem State.setInf_ovr (s : State) (b : Bool) : (s.setInf b).ovr = s.ovr := rfl
@[simp] theorem State.setInf_eqFlag (s : State) (b : Bool) : (s.setInf b).eqFlag = s.eqFlag := rfl
@[simp] theorem State.setInf_infFlag (s : State) (b : Bool) : (s.setInf b).infFlag = b := rfl
@[simp] theorem State.setInf_errCode (s : State) (b : Bool) : (s.setInf b).errCode = s.errCode := rfl
@[simp] theorem State.setInf_ieDone (s : State) (b : Bool) : (s.setInf b).ieDone = s.ieDone := rfl
@[simp] theorem State.setInf_ieErr (s : State) (b : Bool) : (s.setInf b).ieErr = s.ieErr := rfl
@[simp] theorem State.setInf_errCmd (s : State) (b : Bool) : (s.setInf b).errCmd = s.errCmd := rfl
@[simp] theorem State.setInf_cmdLatch (s : State) (b : Bool) : (s.setInf b).cmdLatch = s.cmdLatch := rfl
@[simp] theorem State.setInf_events (s : State) (b : Bool) : (s.setInf b).events = s.events := rfl
@[simp] theorem State.setInf_readLog (s : State) (b : Bool) : (s.setInf b).readLog = s.readLog := rfl

@[simp] theorem State.completed_F (s : State) : s.completed.F = s.F := rfl
@[simp] theorem State.completed_P (s : State) : s.completed.P = s.P := rfl
@[simp] theorem State.completed_pmod (s : State) : s.completed.pmod = s.pmod := rfl
@[simp] theorem State.completed_curve0 (s : State) : s.completed.curve0 = s.curve0 := rfl
@[simp] theorem State.completed_K (s : State) : s.completed.K = s.K := rfl
@[simp] theorem State.completed_dinl (s : State) : s.completed.dinl = s.dinl := rfl
@[simp] theorem State.completed_dinh (s : State) : s.completed.dinh = s.dinh := rfl
@[simp] theorem State.completed_dout (s : State) : s.completed.dout = s.dout := rfl
@[simp] theorem State.completed_busy (s : State) : s.completed.busy = false := rfl
@[simp] theorem State.completed_done (s : State) : s.completed.done = true := rfl
@[simp] theorem State.completed_err (s : State) : s.completed.err = s.err := rfl
@[simp] theorem State.completed_ovr (s : State) : s.completed.ovr = s.ovr := rfl
@[simp] theorem State.completed_eqFlag (s : State) : s.completed.eqFlag = s.eqFlag := rfl
@[simp] theorem State.completed_infFlag (s : State) : s.completed.infFlag = s.infFlag := rfl
@[simp] theorem State.completed_errCode (s : State) : s.completed.errCode = s.errCode := rfl
@[simp] theorem State.completed_ieDone (s : State) : s.completed.ieDone = s.ieDone := rfl
@[simp] theorem State.completed_ieErr (s : State) : s.completed.ieErr = s.ieErr := rfl
@[simp] theorem State.completed_errCmd (s : State) : s.completed.errCmd = s.errCmd := rfl
@[simp] theorem State.completed_cmdLatch (s : State) : s.completed.cmdLatch = s.cmdLatch := rfl
@[simp] theorem State.completed_events (s : State) : s.completed.events = s.events := rfl
@[simp] theorem State.completed_readLog (s : State) : s.completed.readLog = s.readLog := rfl

@[simp] theorem State.raise_F (s : State) (e : ErrorKind) : (s.raise e).F = s.F := rfl
@[simp] theorem State.raise_P (s : State) (e : ErrorKind) : (s.raise e).P = s.P := rfl
@[simp] theorem State.raise_pmod (s : State) (e : ErrorKind) : (s.raise e).pmod = s.pmod := rfl
@[simp] theorem State.raise_curve0 (s : State) (e : ErrorKind) : (s.raise e).curve0 = s.curve0 := rfl
@[simp] theorem State.raise_K (s : State) (e : ErrorKind) : (s.raise e).K = s.K := rfl
@[simp] theorem State.raise_dinl (s : State) (e : ErrorKind) : (s.raise e).dinl = s.dinl := rfl
@[simp] theorem State.raise_dinh (s : State) (e : ErrorKind) : (s.raise e).dinh = s.dinh := rfl
@[simp] theorem State.raise_dout (s : State) (e : ErrorKind) : (s.raise e).dout = s.dout := rfl
@[simp] theorem State.raise_busy (s : State) (e : ErrorKind) : (s.raise e).busy = false := rfl
@[simp] theorem State.raise_done (s : State) (e : ErrorKind) : (s.raise e).done = true := rfl
@[simp] theorem State.raise_err (s : State) (e : ErrorKind) : (s.raise e).err = true := rfl
@[simp] theorem State.raise_ovr (s : State) (e : ErrorKind) : (s.raise e).ovr = s.ovr := rfl
@[simp] theorem State.raise_eqFlag (s : State) (e : ErrorKind) : (s.raise e).eqFlag = s.eqFlag := rfl
@[simp] theorem State.raise_infFlag (s : State) (e : ErrorKind) : (s.raise e).infFlag = s.infFlag := rfl
@[simp] theorem State.raise_errCode (s : State) (e : ErrorKind) : (s.raise e).errCode = e.code := rfl
@[simp] theorem State.raise_ieDone (s : State) (e : ErrorKind) : (s.raise e).ieDone = s.ieDone := rfl
@[simp] theorem State.raise_ieErr (s : State) (e : ErrorKind) : (s.raise e).ieErr = s.ieErr := rfl
@[simp] theorem State.raise_errCmd (s : State) (e : ErrorKind) : (s.raise e).errCmd = s.cmdLatch := rfl
@[simp] theorem State.raise_cmdLatch (s : State) (e : ErrorKind) : (s.raise e).cmdLatch = s.cmdLatch := rfl
@[simp] theorem State.raise_events (s : State) (e : ErrorKind) : (s.raise e).events = s.events := rfl
@[simp] theorem State.raise_readLog (s : State) (e : ErrorKind) : (s.raise e).readLog = s.readLog := rfl

@[simp] theorem State.clearErr_F (s : State) : s.clearErr.F = s.F := rfl
@[simp] theorem State.clearErr_P (s : State) : s.clearErr.P = s.P := rfl
@[simp] theorem State.clearErr_pmod (s : State) : s.clearErr.pmod = s.pmod := rfl
@[simp] theorem State.clearErr_curve0 (s : State) : s.clearErr.curve0 = s.curve0 := rfl
@[simp] theorem State.clearErr_K (s : State) : s.clearErr.K = s.K := rfl
@[simp] theorem State.clearErr_dinl (s : State) : s.clearErr.dinl = s.dinl := rfl
@[simp] theorem State.clearErr_dinh (s : State) : s.clearErr.dinh = s.dinh := rfl
@[simp] theorem State.clearErr_dout (s : State) : s.clearErr.dout = s.dout := rfl
@[simp] theorem State.clearErr_busy (s : State) : s.clearErr.busy = s.busy := rfl
@[simp] theorem State.clearErr_done (s : State) : s.clearErr.done = s.done := rfl
@[simp] theorem State.clearErr_err (s : State) : s.clearErr.err = false := rfl
@[simp] theorem State.clearErr_ovr (s : State) : s.clearErr.ovr = s.ovr := rfl
@[simp] theorem State.clearErr_eqFlag (s : State) : s.clearErr.eqFlag = s.eqFlag := rfl
@[simp] theorem State.clearErr_infFlag (s : State) : s.clearErr.infFlag = s.infFlag := rfl
@[simp] theorem State.clearErr_errCode (s : State) : s.clearErr.errCode = 0 := rfl
@[simp] theorem State.clearErr_ieDone (s : State) : s.clearErr.ieDone = s.ieDone := rfl
@[simp] theorem State.clearErr_ieErr (s : State) : s.clearErr.ieErr = s.ieErr := rfl
@[simp] theorem State.clearErr_errCmd (s : State) : s.clearErr.errCmd = 0 := rfl
@[simp] theorem State.clearErr_cmdLatch (s : State) : s.clearErr.cmdLatch = s.cmdLatch := rfl
@[simp] theorem State.clearErr_events (s : State) : s.clearErr.events = s.events := rfl
@[simp] theorem State.clearErr_readLog (s : State) : s.clearErr.readLog = s.readLog := rfl

@[simp] theorem State.resetCore_F (s : State) : s.resetCore.F = State.reset.F := rfl
@[simp] theorem State.resetCore_P (s : State) : s.resetCore.P = State.reset.P := rfl
@[simp] theorem State.resetCore_pmod (s : State) : s.resetCore.pmod = State.reset.pmod := rfl
@[simp] theorem State.resetCore_curve0 (s : State) : s.resetCore.curve0 = State.reset.curve0 := rfl
@[simp] theorem State.resetCore_K (s : State) : s.resetCore.K = State.reset.K := rfl
@[simp] theorem State.resetCore_dinl (s : State) : s.resetCore.dinl = State.reset.dinl := rfl
@[simp] theorem State.resetCore_dinh (s : State) : s.resetCore.dinh = State.reset.dinh := rfl
@[simp] theorem State.resetCore_dout (s : State) : s.resetCore.dout = State.reset.dout := rfl
@[simp] theorem State.resetCore_busy (s : State) : s.resetCore.busy = State.reset.busy := rfl
@[simp] theorem State.resetCore_done (s : State) : s.resetCore.done = State.reset.done := rfl
@[simp] theorem State.resetCore_err (s : State) : s.resetCore.err = State.reset.err := rfl
@[simp] theorem State.resetCore_ovr (s : State) : s.resetCore.ovr = State.reset.ovr := rfl
@[simp] theorem State.resetCore_eqFlag (s : State) : s.resetCore.eqFlag = State.reset.eqFlag := rfl
@[simp] theorem State.resetCore_infFlag (s : State) : s.resetCore.infFlag = State.reset.infFlag := rfl
@[simp] theorem State.resetCore_errCode (s : State) : s.resetCore.errCode = State.reset.errCode := rfl
@[simp] theorem State.resetCore_ieDone (s : State) : s.resetCore.ieDone = State.reset.ieDone := rfl
@[simp] theorem State.resetCore_ieErr (s : State) : s.resetCore.ieErr = State.reset.ieErr := rfl
@[simp] theorem State.resetCore_errCmd (s : State) : s.resetCore.errCmd = State.reset.errCmd := rfl
@[simp] theorem State.resetCore_cmdLatch (s : State) : s.resetCore.cmdLatch = State.reset.cmdLatch := rfl
@[simp] theorem State.resetCore_events (s : State) : s.resetCore.events = s.events := rfl
@[simp] theorem State.resetCore_readLog (s : State) : s.resetCore.readLog = s.readLog := rfl

@[simp] theorem State.lost_F (s : State) : s.lost.F = s.F := rfl
@[simp] theorem State.lost_P (s : State) : s.lost.P = s.P := rfl
@[simp] theorem State.lost_pmod (s : State) : s.lost.pmod = s.pmod := rfl
@[simp] theorem State.lost_curve0 (s : State) : s.lost.curve0 = s.curve0 := rfl
@[simp] theorem State.lost_K (s : State) : s.lost.K = s.K := rfl
@[simp] theorem State.lost_dinl (s : State) : s.lost.dinl = s.dinl := rfl
@[simp] theorem State.lost_dinh (s : State) : s.lost.dinh = s.dinh := rfl
@[simp] theorem State.lost_dout (s : State) : s.lost.dout = s.dout := rfl
@[simp] theorem State.lost_busy (s : State) : s.lost.busy = s.busy := rfl
@[simp] theorem State.lost_done (s : State) : s.lost.done = s.done := rfl
@[simp] theorem State.lost_err (s : State) : s.lost.err = s.err := rfl
@[simp] theorem State.lost_ovr (s : State) : s.lost.ovr = true := rfl
@[simp] theorem State.lost_eqFlag (s : State) : s.lost.eqFlag = s.eqFlag := rfl
@[simp] theorem State.lost_infFlag (s : State) : s.lost.infFlag = s.infFlag := rfl
@[simp] theorem State.lost_errCode (s : State) : s.lost.errCode = s.errCode := rfl
@[simp] theorem State.lost_ieDone (s : State) : s.lost.ieDone = s.ieDone := rfl
@[simp] theorem State.lost_ieErr (s : State) : s.lost.ieErr = s.ieErr := rfl
@[simp] theorem State.lost_errCmd (s : State) : s.lost.errCmd = s.errCmd := rfl
@[simp] theorem State.lost_cmdLatch (s : State) : s.lost.cmdLatch = s.cmdLatch := rfl
@[simp] theorem State.lost_events (s : State) : s.lost.events = s.events := rfl
@[simp] theorem State.lost_readLog (s : State) : s.lost.readLog = s.readLog := rfl

@[simp] theorem State.accept_F (s : State) (w : Word) : (s.accept w).F = s.F := rfl
@[simp] theorem State.accept_P (s : State) (w : Word) : (s.accept w).P = s.P := rfl
@[simp] theorem State.accept_pmod (s : State) (w : Word) : (s.accept w).pmod = s.pmod := rfl
@[simp] theorem State.accept_curve0 (s : State) (w : Word) : (s.accept w).curve0 = s.curve0 := rfl
@[simp] theorem State.accept_K (s : State) (w : Word) : (s.accept w).K = s.K := rfl
@[simp] theorem State.accept_dinl (s : State) (w : Word) : (s.accept w).dinl = s.dinl := rfl
@[simp] theorem State.accept_dinh (s : State) (w : Word) : (s.accept w).dinh = s.dinh := rfl
@[simp] theorem State.accept_dout (s : State) (w : Word) : (s.accept w).dout = s.dout := rfl
@[simp] theorem State.accept_busy (s : State) (w : Word) : (s.accept w).busy = true := rfl
@[simp] theorem State.accept_done (s : State) (w : Word) : (s.accept w).done = false := rfl
@[simp] theorem State.accept_err (s : State) (w : Word) : (s.accept w).err = s.err := rfl
@[simp] theorem State.accept_ovr (s : State) (w : Word) : (s.accept w).ovr = s.ovr := rfl
@[simp] theorem State.accept_eqFlag (s : State) (w : Word) : (s.accept w).eqFlag = s.eqFlag := rfl
@[simp] theorem State.accept_infFlag (s : State) (w : Word) : (s.accept w).infFlag = s.infFlag := rfl
@[simp] theorem State.accept_errCode (s : State) (w : Word) : (s.accept w).errCode = s.errCode := rfl
@[simp] theorem State.accept_ieDone (s : State) (w : Word) : (s.accept w).ieDone = s.ieDone := rfl
@[simp] theorem State.accept_ieErr (s : State) (w : Word) : (s.accept w).ieErr = s.ieErr := rfl
@[simp] theorem State.accept_errCmd (s : State) (w : Word) : (s.accept w).errCmd = s.errCmd := rfl
@[simp] theorem State.accept_cmdLatch (s : State) (w : Word) : (s.accept w).cmdLatch = w := rfl
@[simp] theorem State.accept_events (s : State) (w : Word) : (s.accept w).events = s.events := rfl
@[simp] theorem State.accept_readLog (s : State) (w : Word) : (s.accept w).readLog = s.readLog := rfl

end Sys2Proof.Machine
end

