-- ==== Sys2Proof/Laws/Ops.lean ====
section
/-! SUPPORT. The shared operations of a `Complete` step: what `finish` can answer, when a check passes, and how the
steps of a pseudocode chain. -/

namespace Sys2Proof.Machine

@[simp] theorem ok_bind {α β : Type} (a : α) (f : α → Except ErrorKind β) : (Except.ok a >>= f) = f a := rfl

@[simp] theorem error_bind {α β : Type} (e : ErrorKind) (f : α → Except ErrorKind β) :
    (Except.error e >>= f) = Except.error e := rfl

@[simp] theorem pure_eq_ok {α : Type} (a : α) : (pure a : Except ErrorKind α) = .ok a := rfl

@[simp] theorem finish_ok (s t : State) : finish s (.ok t) = .next t.completed := rfl

@[simp] theorem finish_error (s : State) (e : ErrorKind) : finish s (.error e) = .next (s.raise e) := rfl

@[simp] theorem require_true (e : ErrorKind) : require true e = .ok () := rfl

@[simp] theorem require_false (e : ErrorKind) : require false e = .error e := rfl

@[simp] theorem orRaise_some {α : Type} (a : α) (e : ErrorKind) : orRaise (some a) e = .ok a := rfl

@[simp] theorem orRaise_none {α : Type} (e : ErrorKind) : orRaise (none : Option α) e = .error e := rfl

/-- Everything the end of a step can answer (R120): the completed writes of the pseudocode, or the error entry. -/
theorem finish_cases {s t : State} {r : Except ErrorKind State} (h : finish s r = .next t) :
    (∃ u, r = .ok u ∧ t = u.completed) ∨ (∃ e, r = .error e ∧ t = s.raise e) := by
  cases r with
  | ok u => exact .inl ⟨u, rfl, by simpa using h.symm⟩
  | error e => exact .inr ⟨e, rfl, by simpa using h.symm⟩

/-- The end of a step always answers a next state. -/
theorem finish_next (s : State) (r : Except ErrorKind State) : ∃ t, finish s r = .next t := by
  cases r <;> simp

theorem require_eq_ok {c : Bool} {e : ErrorKind} {u : Unit} (h : require c e = .ok u) : c = true := by
  cases c <;> simp_all

theorem orRaise_eq_ok {α : Type} {o : Option α} {e : ErrorKind} {a : α} (h : orRaise o e = .ok a) : o = some a := by
  cases o <;> simp_all

/-- A step of a pseudocode that does not raise gives the value the rest continues with. -/
theorem bind_eq_ok {α β : Type} {x : Except ErrorKind α} {f : α → Except ErrorKind β} {b : β}
    (h : (x >>= f) = .ok b) : ∃ a, x = .ok a ∧ f a = .ok b := by
  cases x with
  | ok a => exact ⟨a, rfl, h⟩
  | error e => simp at h

end Sys2Proof.Machine
end

