-- ==== Sys2Proof/Laws/Bus.lean ====
section
/-! SUPPORT. The register port: the words of a wide register are independent, and what a host write can do. -/

namespace Sys2Proof.Machine

/-- Reading back a written word, and every other word unchanged (R62, R66). -/
theorem getWord_setWord (v : Value) (i j : Fin 8) (d : Word) :
    getWord (setWord v i d) j = if j = i then d else getWord v j := by
  have hall : ∀ k : Nat, (0xFFFFFFFF#256).getLsbD k = decide (k < 32) := by
    intro k
    by_cases h : k < 256
    · have : ∀ k : Fin 256, (0xFFFFFFFF#256).getLsbD k.val = decide (k.val < 32) := by decide +kernel
      exact this ⟨k, h⟩
    · rw [BitVec.getLsbD_of_ge _ _ (by omega)]; simp; omega
  apply BitVec.eq_of_getLsbD_eq
  intro b hb
  have hi := i.isLt
  have hj := j.isLt
  have hji : j = i ↔ j.val = i.val := Fin.ext_iff
  simp only [getWord, setWord, BitVec.getLsbD_extractLsb', hb, decide_true, Bool.true_and, BitVec.getLsbD_or,
    BitVec.getLsbD_and, BitVec.getLsbD_not, BitVec.getLsbD_shiftLeft, hall, BitVec.getLsbD_setWidth]
  split
  next h =>
    have := hji.1 h
    have h1 : 32 * j.val + b < 256 := by omega
    have h2 : ¬ 32 * j.val + b < 32 * i.val := by omega
    have h3 : 32 * j.val + b - 32 * i.val = b := by omega
    have h4 : b < 256 := by omega
    simp [h1, h2, h3, hb, h4]
  next h =>
    have : j.val ≠ i.val := fun h' => h (hji.2 h')
    have h1 : 32 * j.val + b < 256 := by omega
    by_cases h2 : 32 * j.val + b < 32 * i.val
    · simp [h1, h2, hb]
    · have h3 : ¬ 32 * j.val + b - 32 * i.val < 32 := by omega
      have h4 : d.getLsbD (32 * j.val + b - 32 * i.val) = false := BitVec.getLsbD_of_ge _ _ (by omega)
      simp [h1, h2, h3, h4, hb]

/-- A write to `CTRL` that is no soft reset, field by field (R69). -/
theorem writeCtrl_eq (s : State) (d : Word) (h : d.getLsbD 31 = false) :
    writeCtrl s d = { s with
      ieDone := d.getLsbD 0
      ieErr := d.getLsbD 1
      err := if d.getLsbD 8 then false else s.err
      errCode := if d.getLsbD 8 then 0 else s.errCode
      errCmd := if d.getLsbD 8 then 0 else s.errCmd
      ovr := if d.getLsbD 9 then false else s.ovr
      done := if d.getLsbD 10 then false else s.done } := by
  simp only [writeCtrl, h, Bool.false_eq_true, if_false]
  cases d.getLsbD 8 <;> cases d.getLsbD 9 <;> cases d.getLsbD 10 <;> rfl

/-- Everything a host write can do to the registers commands use: nothing but a data word, the latch, or a reset. -/
theorem writePort_frame (s : State) (w : PortWord) (d : Word) (h : ¬ (w = .ctrl ∧ d.getLsbD 31 = true)) :
    (writePort s w d).F = s.F ∧ (writePort s w d).P = s.P ∧ (writePort s w d).pmod = s.pmod ∧
    (writePort s w d).curve0 = s.curve0 ∧ (writePort s w d).dout = s.dout ∧
    (writePort s w d).eqFlag = s.eqFlag ∧ (writePort s w d).infFlag = s.infFlag ∧
    (writePort s w d).events = s.events ∧ (writePort s w d).readLog = s.readLog := by
  cases w with
  | cmd => simp only [writePort, writeCmd]; split <;> simp
  | ctrl =>
    have h31 : d.getLsbD 31 = false := Bool.eq_false_iff.2 fun h' => h ⟨rfl, h'⟩
    rw [writePort, writeCtrl_eq s d h31]
    exact ⟨rfl, rfl, rfl, rfl, rfl, rfl, rfl, rfl, rfl⟩
  | dinl i => simp only [writePort]; split <;> simp
  | dinh i => simp only [writePort]; split <;> simp
  | k i => simp only [writePort]; split <;> simp
  | status | errcmd | dout _ | reserved => exact ⟨rfl, rfl, rfl, rfl, rfl, rfl, rfl, rfl, rfl⟩

end Sys2Proof.Machine
end

