-- ==== Sys2Proof/Laws/Operands.lean ====
section
/-! SUPPORT. Operand fetch, slot lookup, the group law and the scalar loop: what each can answer. -/

namespace Sys2Proof.Machine

theorem needF_eq_ok {s : State} {i : FIdx} {r : FieldRec} (h : needF s i = .ok r) : s.F[i] = some r :=
  orRaise_eq_ok h

theorem needP_eq_ok {s : State} {j : PIdx} {r : PointRec} (h : needP s j = .ok r) : s.P[j] = some r :=
  orRaise_eq_ok h

theorem needF_none {s : State} {i : FIdx} (h : s.F[i] = none) : needF s i = .error .absentValue := by
  simp only [needF, h, orRaise_none]

theorem needP_none {s : State} {j : PIdx} (h : s.P[j] = none) : needP s j = .error .absentValue := by
  simp only [needP, h, orRaise_none]

theorem needF_some {s : State} {i : FIdx} {r : FieldRec} (h : s.F[i] = some r) : needF s i = .ok r := by
  simp only [needF, h, orRaise_some]

theorem needP_some {s : State} {j : PIdx} {r : PointRec} (h : s.P[j] = some r) : needP s j = .ok r := by
  simp only [needP, h, orRaise_some]

/-- The prime of a curve is the prime of its slot (R34). -/
theorem primeOf_of_curveOf {s : State} {c : Slot} {cv : Curve} (h : curveOf s c = some cv) :
    primeOf s c = some cv.p := by
  cases c with
  | secp =>
    simp only [curveOf, Option.some.injEq] at h
    subst h; rfl
  | prog =>
    simp only [curveOf] at h
    split at h
    next c p hc hp =>
      simp only [Option.some.injEq] at h
      subst h
      simp only [primeOf, hp, Option.map_some]
    next => simp at h

/-- A slot's prime has 256 bits. -/
theorem primeOf_lt {s : State} {m : Slot} {p : Nat} (h : primeOf s m = some p) : p < 2 ^ 256 := by
  cases m with
  | secp => simp only [primeOf, Option.some.injEq] at h; subst h; exact pSecp_lt
  | prog =>
    simp only [primeOf, Option.map_eq_some_iff] at h
    obtain ⟨v, -, rfl⟩ := h
    exact v.isLt

theorem curveOf_lt {s : State} {c : Slot} {cv : Curve} (h : curveOf s c = some cv) : cv.p < 2 ^ 256 :=
  primeOf_lt (primeOf_of_curveOf h)

/-- The operands and checks of a binary field command (R144): everything that holds when they pass. -/
theorem needSameField_eq_ok {s : State} {a b : FIdx} {A B : FieldRec} {p : Nat}
    (h : needSameField s a b = .ok (A, B, p)) :
    s.F[a] = some A ∧ s.F[b] = some B ∧ primeOf s A.m = some p ∧ primeOf s B.m = some p := by
  unfold needSameField at h
  obtain ⟨A', hA, h⟩ := bind_eq_ok h
  obtain ⟨B', hB, h⟩ := bind_eq_ok h
  obtain ⟨p', hp, h⟩ := bind_eq_ok h
  obtain ⟨q', hq, h⟩ := bind_eq_ok h
  obtain ⟨u, hr, h⟩ := bind_eq_ok h
  have hpq : p' = q' := by simpa using require_eq_ok hr
  simp only [pure_eq_ok, Except.ok.injEq, Prod.mk.injEq] at h
  obtain ⟨rfl, rfl, rfl⟩ := h
  exact ⟨needF_eq_ok hA, needF_eq_ok hB, orRaise_eq_ok hp, hpq ▸ orRaise_eq_ok hq⟩

/-- Everything the group law can answer (R182) on two points of one curve: the second operand whole, the first
whole, or the sum of two finite points with the first operand's tag. -/
theorem padd_same_curve {s : State} {A B : PointRec} {cv : Curve} (hA : curveOf s A.c = some cv)
    (hB : curveOf s B.c = some cv) :
    (A.pt = .infinity ∧ padd s A B = .ok B) ∨
    (A.pt ≠ .infinity ∧ B.pt = .infinity ∧ padd s A B = .ok A) ∨
    (∃ x1 y1 x2 y2, A.pt = .finite x1 y1 ∧ B.pt = .finite x2 y2 ∧
      padd s A B = (addFinite cv x1.toNat y1.toNat x2.toNat y2.toNat).map (fun r => { c := A.c, pt := r })) := by
  obtain ⟨ca, pa⟩ := A
  obtain ⟨cb, pb⟩ := B
  simp only at hA hB
  cases pa with
  | infinity => left; simp [padd, needCurve, hA, hB]
  | finite x1 y1 =>
    cases pb with
    | infinity => right; left; simp [padd, needCurve, hA, hB]
    | finite x2 y2 =>
      right; right
      refine ⟨x1, y1, x2, y2, rfl, rfl, ?_⟩
      simp only [padd, needCurve, hA, hB, decide_true, require_true, ok_bind, orRaise_some]
      cases addFinite cv x1.toNat y1.toNat x2.toNat y2.toNat <;> rfl

/-- When the group law answers a point, the operands are of one defined curve (R182 case 1). -/
theorem curveOf_of_padd {s : State} {A B R : PointRec} (h : padd s A B = .ok R) :
    ∃ cv, curveOf s A.c = some cv ∧ curveOf s B.c = some cv := by
  unfold padd at h
  obtain ⟨u, hr, h⟩ := bind_eq_ok h
  obtain ⟨cv, hc, -⟩ := bind_eq_ok h
  have hab : curveOf s A.c = curveOf s B.c := by simpa using require_eq_ok hr
  exact ⟨cv, orRaise_eq_ok hc, hab ▸ orRaise_eq_ok hc⟩

/-- A point with its coordinates below a modulus (R35 (e)). -/
def Coords.Below (p : Nat) : Coords → Prop
  | .infinity => True
  | .finite x y => x.toNat < p ∧ y.toNat < p

/-- The group law keeps the curve and the range of the coordinates. -/
theorem padd_below {s : State} {A B R : PointRec} {cv : Curve} (hA : curveOf s A.c = some cv)
    (hB : curveOf s B.c = some cv) (hp : 2 ≤ cv.p) (bA : A.pt.Below cv.p) (bB : B.pt.Below cv.p)
    (h : padd s A B = .ok R) : curveOf s R.c = some cv ∧ R.pt.Below cv.p ∧ (R.c = A.c ∨ R.c = B.c) := by
  rcases padd_same_curve hA hB with ⟨-, he⟩ | ⟨-, -, he⟩ | ⟨x1, y1, x2, y2, -, -, he⟩
  · rw [he] at h; cases h; exact ⟨hB, bB, .inr rfl⟩
  · rw [he] at h; cases h; exact ⟨hA, bA, .inl rfl⟩
  · rw [he] at h
    rcases addFinite_cases cv x1.toNat y1.toNat x2.toNat y2.toNat (by omega) (by have := curveOf_lt hA; omega) with
      h1 | ⟨x3, y3, h1, hx, hy⟩ | ⟨h1, -⟩ <;> rw [h1] at h <;> cases h
    · exact ⟨hA, trivial, .inl rfl⟩
    · exact ⟨hA, ⟨hx, hy⟩, .inl rfl⟩

/-- On a curve over an odd modulus the group law raises nothing (R182 note (iii)). -/
theorem padd_odd {s : State} {A B : PointRec} {cv : Curve} (hA : curveOf s A.c = some cv)
    (hB : curveOf s B.c = some cv) (hp : cv.p % 2 = 1) (bA : A.pt.Below cv.p) :
    ∃ R, padd s A B = .ok R := by
  rcases padd_same_curve hA hB with ⟨-, he⟩ | ⟨-, -, he⟩ | ⟨x1, y1, x2, y2, h1, -, he⟩
  · exact ⟨_, he⟩
  · exact ⟨_, he⟩
  · rcases addFinite_cases cv x1.toNat y1.toNat x2.toNat y2.toNat (by omega) (by have := curveOf_lt hA; omega) with
      h | ⟨x3, y3, h, -⟩ | ⟨-, -, -, hy0, hd⟩
    · exact ⟨_, by rw [he, h]; rfl⟩
    · exact ⟨_, by rw [he, h]; rfl⟩
    · exfalso
      rw [h1] at bA
      have hy : y1.toNat < cv.p := bA.2
      obtain ⟨k, hk⟩ := Nat.dvd_of_mod_eq_zero hd
      have : k = 0 ∨ k = 1 := by
        have : k < 2 := by
          by_contra hk2
          have : cv.p * 2 ≤ cv.p * k := Nat.mul_le_mul_left _ (by omega)
          omega
        omega
      rcases this with rfl | rfl <;> omega

/-- The scalar loop keeps the curve and the range of the coordinates. -/
theorem smulLoop_below {s : State} {cv : Curve} (hp : 2 ≤ cv.p) :
    ∀ (n k : Nat) (r c R : PointRec), curveOf s r.c = some cv → curveOf s c.c = some cv →
      r.pt.Below cv.p → c.pt.Below cv.p → smulLoop s n k r c = .ok R →
      curveOf s R.c = some cv ∧ R.pt.Below cv.p
  | 0, k, r, c, R, hr, hc, br, bc, h => by
    simp only [smulLoop, Except.ok.injEq] at h
    exact h ▸ ⟨hr, br⟩
  | n + 1, k, r, c, R, hr, hc, br, bc, h => by
    unfold smulLoop at h
    obtain ⟨r', h1, h⟩ := bind_eq_ok h
    obtain ⟨c', h2, h⟩ := bind_eq_ok h
    have hc' := padd_below hc hc hp bc bc h2
    have hr' : curveOf s r'.c = some cv ∧ r'.pt.Below cv.p := by
      unfold addIfSet at h1
      split at h1
      · exact ⟨(padd_below hr hc hp br bc h1).1, (padd_below hr hc hp br bc h1).2.1⟩
      · cases h1; exact ⟨hr, br⟩
    exact smulLoop_below hp n _ r' c' R hr'.1 hc'.1 hr'.2 hc'.2.1 h

/-- Over an odd modulus the scalar loop raises nothing (R221). -/
theorem smulLoop_odd {s : State} {cv : Curve} (hp : 2 ≤ cv.p) (ho : cv.p % 2 = 1) :
    ∀ (n k : Nat) (r c : PointRec), curveOf s r.c = some cv → curveOf s c.c = some cv →
      r.pt.Below cv.p → c.pt.Below cv.p → ∃ R, smulLoop s n k r c = .ok R
  | 0, k, r, c, hr, hc, br, bc => ⟨r, rfl⟩
  | n + 1, k, r, c, hr, hc, br, bc => by
    obtain ⟨c', h2⟩ := padd_odd hc hc ho bc
    have hc' := padd_below hc hc hp bc bc h2
    have hr' : ∃ r', addIfSet s k r c = .ok r' ∧ curveOf s r'.c = some cv ∧
        r'.pt.Below cv.p := by
      unfold addIfSet
      split
      · obtain ⟨r', h1⟩ := padd_odd hr hc ho br
        have := padd_below hr hc hp br bc h1
        exact ⟨r', h1, this.1, this.2.1⟩
      · exact ⟨r, rfl, hr, br⟩
    obtain ⟨r', h1, h3, h4⟩ := hr'
    obtain ⟨R, h⟩ := smulLoop_odd hp ho n (k / 2) r' c' h3 hc'.1 h4 hc'.2.1
    exact ⟨R, by simp [smulLoop, h1, h2, h]⟩

end Sys2Proof.Machine
end

