-- ==== Sys2Proof/Laws/Exec.lean ====
section
/-! SUPPORT. Said once: everything a command can do (`exec_cases`), and everything a step can do (`step_cases`). The
whole-machine statements follow from these two without unfolding a meaning again. -/

namespace Sys2Proof.Machine

/-- The writes a command commits when it does not raise (R120): which registers, and, for a state that meets the
invariants, that what they get is in range. -/
inductive Commits : Instr → State → State → Prop where
  | nothing (s : State) : Commits .nop s s
  | modulus (s : State) : 2 ≤ s.dinl.toNat → Commits .mset s (s.setModulus s.dinl)
  | curve (a b : FIdx) (s : State) (A B : FieldRec) :
      (s.Inv → belowPrime s .prog A.num ∧ belowPrime s .prog B.num) →
      Commits (.cset a b) s (s.setCurve A.num B.num)
  | scalar (s : State) : Commits .kldn s (s.setK (BitVec.ofNat 256 nSecp))
  | out (a : FIdx) (s : State) (v : Value) : Commits (.fget a) s (s.setDout v)
  | field (i : Instr) (d : FIdx) (s : State) (m : Slot) (n : Nat) : destF i = some d →
      (s.Inv → ∃ p, primeOf s m = some p ∧ n < p) → Commits i s (s.writeF d m n)
  | point (i : Instr) (d : PIdx) (s : State) (r : PointRec) : destP i = some d →
      (s.Inv → (r.c = .prog → s.curve0.isSome) ∧ ∃ p, primeOf s r.c = some p ∧ r.pt.Below p) →
      Commits i s (s.writeP d r)
  | equalF (a b : FIdx) (s : State) (q : Bool) : Commits (.feq a b) s (s.setEq q)
  | equalP (a b : PIdx) (s : State) (q : Bool) : Commits (.peq a b) s (s.setEq q)
  | infinite (a : PIdx) (s : State) (q : Bool) : Commits (.ptest a) s (s.setInf q)

/-- A pseudocode whose result, when it does not raise, is one the command may commit, and which raises no
`IllegalCommandError`. -/
def Lawful (i : Instr) (s : State) (r : Except ErrorKind State) : Prop :=
  (∀ u, r = .ok u → Commits i s u) ∧ r ≠ .error .illegalCommand

theorem Lawful.finish_cases {i : Instr} {s t : State} {r : Except ErrorKind State} (hr : Lawful i s r)
    (h : finish s r = .next t) :
    (∃ e : ErrorKind, e ≠ .illegalCommand ∧ t = s.raise e) ∨ (∃ u, Commits i s u ∧ t = u.completed) := by
  rcases Machine.finish_cases h with ⟨u, rfl, rfl⟩ | ⟨e, rfl, rfl⟩
  · exact .inr ⟨u, hr.1 u rfl, rfl⟩
  · exact .inl ⟨e, fun he => hr.2 (by rw [he]), rfl⟩

theorem lawful_ok {i : Instr} {s u : State} (h : Commits i s u) : Lawful i s (.ok u) :=
  ⟨fun v hv => by cases hv; exact h, by simp⟩

theorem lawful_error {i : Instr} {s : State} {e : ErrorKind} (h : e ≠ .illegalCommand) : Lawful i s (.error e) :=
  ⟨by simp, by simpa using h⟩

theorem lawful_bind {α : Type} {i : Instr} {s : State} {x : Except ErrorKind α} {f : α → Except ErrorKind State}
    (hx : x ≠ .error .illegalCommand) (hf : ∀ a, x = .ok a → Lawful i s (f a)) : Lawful i s (x >>= f) := by
  cases x with
  | ok a => exact hf a rfl
  | error e => exact lawful_error fun he => hx (by rw [he])

theorem orRaise_ne {α : Type} {o : Option α} {e e' : ErrorKind} (h : e ≠ e') : orRaise o e ≠ .error e' := by
  cases o <;> simp [h]

theorem require_ne {c : Bool} {e e' : ErrorKind} (h : e ≠ e') : require c e ≠ .error e' := by
  cases c <;> simp [h]

theorem bind_ne {α β : Type} {x : Except ErrorKind α} {f : α → Except ErrorKind β} {e : ErrorKind}
    (hx : x ≠ .error e) (hf : ∀ a, f a ≠ .error e) : (x >>= f) ≠ .error e := by
  cases x with
  | ok a => exact hf a
  | error e' => simpa using hx

theorem needF_ne (s : State) (i : FIdx) : needF s i ≠ .error .illegalCommand := orRaise_ne (by decide)

theorem needP_ne (s : State) (j : PIdx) : needP s j ≠ .error .illegalCommand := orRaise_ne (by decide)

theorem needPrime_ne (s : State) (m : Slot) : needPrime s m ≠ .error .illegalCommand := orRaise_ne (by decide)

theorem needCurve_ne (s : State) (c : Slot) : needCurve s c ≠ .error .illegalCommand := orRaise_ne (by decide)

theorem needSameField_ne (s : State) (a b : FIdx) : needSameField s a b ≠ .error .illegalCommand :=
  bind_ne (needF_ne s a) fun _ => bind_ne (needF_ne s b) fun _ => bind_ne (needPrime_ne s _) fun _ =>
    bind_ne (needPrime_ne s _) fun _ => bind_ne (require_ne (by decide)) fun _ => by simp

theorem addFinite_ne (cv : Curve) (x1 y1 x2 y2 : Nat) : addFinite cv x1 y1 x2 y2 ≠ .error .illegalCommand := by
  unfold addFinite tangent
  split
  · simp
  · split
    · simp
    · split
      · simp
      · split <;> simp

theorem padd_ne (s : State) (A B : PointRec) : padd s A B ≠ .error .illegalCommand :=
  bind_ne (require_ne (by decide)) fun _ => bind_ne (needCurve_ne s _) fun cv => by
    split
    · simp
    · simp
    · exact bind_ne (addFinite_ne _ _ _ _ _) fun _ => by simp

theorem smulLoop_ne (s : State) : ∀ (n k : Nat) (r c : PointRec), smulLoop s n k r c ≠ .error .illegalCommand
  | 0, _, _, _ => by simp [smulLoop]
  | n + 1, k, r, c =>
    bind_ne (by unfold addIfSet; split; exacts [padd_ne s r c, by simp]) fun r' =>
      bind_ne (padd_ne s c c) fun c' => smulLoop_ne s n (k / 2) r' c'

/-- In a state that meets the invariants a slot's prime is at least 2 (R35 (f)). -/
theorem State.Inv.two_le_prime {s : State} (h : s.Inv) {m : Slot} {p : Nat} (hp : primeOf s m = some p) : 2 ≤ p := by
  cases m with
  | secp => simp only [primeOf, Option.some.injEq] at hp; exact hp ▸ two_le_pSecp
  | prog =>
    simp only [primeOf, Option.map_eq_some_iff] at hp
    obtain ⟨v, hv, rfl⟩ := hp
    exact h.modulusAtLeastTwo v hv

/-- In a state that meets the invariants a valid point's slot has a prime, and its coordinates lie below it. -/
theorem State.Inv.point {s : State} (h : s.Inv) {j : PIdx} {r : PointRec} (hr : s.P[j] = some r) :
    (r.c = .prog → s.curve0.isSome) ∧ ∃ p, primeOf s r.c = some p ∧ r.pt.Below p := by
  refine ⟨h.pointsHaveCurve j r hr, ?_⟩
  cases hpt : r.pt with
  | finite x y =>
    obtain ⟨⟨p, hp, hx⟩, ⟨q, hq, hy⟩⟩ := h.pointsInRange j r x y hr hpt
    rw [hp] at hq
    cases hq
    exact ⟨p, hp, hx, hy⟩
  | infinity =>
    cases hc : r.c with
    | secp => exact ⟨pSecp, rfl, trivial⟩
    | prog =>
      have hs := h.pointsHaveCurve j r hr hc
      obtain ⟨cf, hcf⟩ := Option.isSome_iff_exists.1 hs
      obtain ⟨⟨p, hp, -⟩, -⟩ := h.curveInRange cf hcf
      exact ⟨p, hp, trivial⟩

theorem lawful_binary {i : Instr} {d a b : FIdx} {s : State} {f : Nat → Nat → Nat → Nat} (hd : destF i = some d)
    (hf : ∀ x y p, 0 < p → f x y p < p) :
    Lawful i s (needSameField s a b >>= fun (A, B, p) => .ok (s.writeF d A.m (f A.num.toNat B.num.toNat p))) :=
  lawful_bind (needSameField_ne s a b) fun ⟨A, B, p⟩ h => lawful_ok <| .field _ _ _ _ _ hd fun hi => by
    obtain ⟨-, -, hp, -⟩ := needSameField_eq_ok h
    exact ⟨p, hp, hf _ _ _ (by have := hi.two_le_prime hp; omega)⟩

/-- The points the group law and the scalar loop start from, in a state that meets the invariants. -/
theorem padd_commits {s : State} {A B R : PointRec} {j k : PIdx} (hA : s.P[j] = some A) (hB : s.P[k] = some B)
    (h : padd s A B = .ok R) (hi : s.Inv) :
    (R.c = .prog → s.curve0.isSome) ∧ ∃ p, primeOf s R.c = some p ∧ R.pt.Below p := by
  obtain ⟨cv, cA, cB⟩ := curveOf_of_padd h
  obtain ⟨hcA, p, hp, bA⟩ := hi.point hA
  obtain ⟨hcB, q, hq, bB⟩ := hi.point hB
  rw [primeOf_of_curveOf cA] at hp
  rw [primeOf_of_curveOf cB] at hq
  cases hp
  cases hq
  obtain ⟨hR, bR, hc⟩ := padd_below cA cB (hi.two_le_prime (primeOf_of_curveOf cA)) bA bB h
  refine ⟨fun hprog => ?_, cv.p, primeOf_of_curveOf hR, bR⟩
  rcases hc with hc | hc
  · exact hcA (hc ▸ hprog)
  · exact hcB (hc ▸ hprog)

/-- A slot with a curve, for slot 0, has coefficients (R34). -/
theorem curve0_of_curveOf {s : State} {c : Slot} {cv : Curve} (h : curveOf s c = some cv) (hc : c = .prog) :
    s.curve0.isSome := by
  subst hc
  simp only [curveOf] at h
  split at h
  next c p h1 h2 => simp [h1]
  next => simp at h

theorem curveOf_prog_of_inv {s : State} (hi : s.Inv) (h : s.curve0.isSome) : ∃ cv, curveOf s .prog = some cv := by
  obtain ⟨cf, hcf⟩ := Option.isSome_iff_exists.1 h
  obtain ⟨⟨p, hp, -⟩, -⟩ := hi.curveInRange cf hcf
  simp only [primeOf, Option.map_eq_some_iff] at hp
  obtain ⟨v, hv, rfl⟩ := hp
  exact ⟨⟨cf.a.toNat, cf.b.toNat, v.toNat⟩, by simp [curveOf, hcf, hv]⟩

/-- A valid point's slot has a curve, in a state that meets the invariants (R34, R35). -/
theorem State.Inv.curve {s : State} (h : s.Inv) {j : PIdx} {r : PointRec} (hr : s.P[j] = some r) :
    ∃ cv, curveOf s r.c = some cv := by
  cases hc : r.c with
  | secp => exact ⟨curveSecp, rfl⟩
  | prog => exact curveOf_prog_of_inv h (h.pointsHaveCurve j r hr hc)

theorem smul_commits {s : State} {A R : PointRec} {j : PIdx} {k : Nat} (hA : s.P[j] = some A)
    (h : smul s k A = .ok R) (hi : s.Inv) :
    (R.c = .prog → s.curve0.isSome) ∧ ∃ p, primeOf s R.c = some p ∧ R.pt.Below p := by
  obtain ⟨cv, hc⟩ := hi.curve hA
  obtain ⟨-, p, hp, bA⟩ := hi.point hA
  rw [primeOf_of_curveOf hc] at hp
  cases hp
  obtain ⟨hR, bR⟩ := smulLoop_below (hi.two_le_prime (primeOf_of_curveOf hc)) _ _
    { c := A.c, pt := .infinity } _ _ hc hc trivial bA h
  exact ⟨curve0_of_curveOf hR, cv.p, primeOf_of_curveOf hR, bR⟩

/-- Everything a command can do: raise an error and write nothing else, or commit its writes and complete. -/
theorem exec_cases {i : Instr} {s t : State} (h : exec i s = .next t) :
    (∃ e : ErrorKind, e ≠ .illegalCommand ∧ t = s.raise e) ∨ (∃ u, Commits i s u ∧ t = u.completed) := by
  cases i with
  | nop => exact (lawful_ok (.nothing s)).finish_cases h
  | mset =>
    exact (lawful_bind (require_ne (by decide)) fun _ hr =>
      lawful_ok (.modulus s (by simpa using require_eq_ok hr))).finish_cases h
  | cset a b =>
    refine (lawful_bind (needF_ne s a) fun A hA => lawful_bind (needF_ne s b) fun B hB =>
      lawful_bind (orRaise_ne (by decide)) fun p hp => lawful_bind (require_ne (by decide)) fun _ hr =>
      lawful_ok (.curve a b s A B fun hi => ?_)).finish_cases h
    have hr := require_eq_ok hr
    simp only [Bool.decide_and, Bool.and_eq_true, decide_eq_true_eq] at hr
    have hp := orRaise_eq_ok hp
    have key : ∀ (k : FIdx) (C : FieldRec), needF s k = .ok C → primeOf s C.m = some p.toNat →
        belowPrime s .prog C.num := by
      intro k C hC hm
      obtain ⟨q, hq, hlt⟩ := hi.fieldsInRange k C (needF_eq_ok hC)
      rw [hm] at hq
      cases hq
      exact ⟨p.toNat, by simp [primeOf, hp], hlt⟩
    exact ⟨key a A hA hr.1, key b B hB hr.2⟩
  | kldn => exact (lawful_ok (.scalar s)).finish_cases h
  | fcons d sel =>
    exact (lawful_bind (needPrime_ne s sel) fun p hp => lawful_bind (require_ne (by decide)) fun _ hr =>
      lawful_ok (.field _ _ _ _ _ rfl fun _ => ⟨p, orRaise_eq_ok hp, by simpa using require_eq_ok hr⟩)).finish_cases h
  | fget a => exact (lawful_bind (needF_ne s a) fun A _ => lawful_ok (.out a s A.num)).finish_cases h
  | fadd d a b => exact (lawful_binary (f := fadd) rfl fadd_lt).finish_cases h
  | fsub d a b => exact (lawful_binary (f := fsub) rfl fsub_lt).finish_cases h
  | fmul d a b => exact (lawful_binary (f := fmul) rfl fmul_lt).finish_cases h
  | fpow d a neg =>
    exact (lawful_bind (needF_ne s a) fun A _ => lawful_bind (needPrime_ne s _) fun p hp =>
      lawful_ok (.field _ _ _ _ _ rfl fun hi => ⟨p, orRaise_eq_ok hp,
        fpow_lt _ _ _ (by have := hi.two_le_prime (orRaise_eq_ok hp); omega)⟩)).finish_cases h
  | finv d a =>
    exact (lawful_bind (needF_ne s a) fun A _ => lawful_bind (needPrime_ne s _) fun p hp =>
      lawful_bind (require_ne (by decide)) fun _ _ =>
      lawful_ok (.field _ _ _ _ _ rfl fun hi => ⟨p, orRaise_eq_ok hp,
        fpow_lt _ _ _ (by have := hi.two_le_prime (orRaise_eq_ok hp); omega)⟩)).finish_cases h
  | fdiv d a b =>
    exact (lawful_bind (needSameField_ne s a b) fun ⟨A, B, p⟩ hs => lawful_bind (require_ne (by decide)) fun _ _ =>
      lawful_ok (.field _ _ _ _ _ rfl fun hi => ⟨p, (needSameField_eq_ok hs).2.2.1,
        fdiv_lt _ _ _ (by have := hi.two_le_prime (needSameField_eq_ok hs).2.2.1; omega)⟩)).finish_cases h
  | feq a b =>
    exact (lawful_bind (needF_ne s a) fun A _ => lawful_bind (needF_ne s b) fun B _ =>
      lawful_ok (.equalF a b s _)).finish_cases h
  | fred d =>
    exact (lawful_ok (.field _ _ _ _ _ rfl fun _ => ⟨pSecp, rfl, Nat.mod_lt _ (by decide)⟩)).finish_cases h
  | pcons d a b =>
    refine (lawful_bind (needF_ne s a) fun X hX => lawful_bind (needF_ne s b) fun Y hY =>
      lawful_bind (needCurve_ne s _) fun cv hcv => lawful_bind (needPrime_ne s _) fun q hq =>
      lawful_bind (require_ne (by decide)) fun _ hr => lawful_bind (require_ne (by decide)) fun _ _ =>
      lawful_ok (.point _ _ _ _ rfl fun hi => ?_)).finish_cases h
    have hcv := orRaise_eq_ok hcv
    have hq := orRaise_eq_ok hq
    have hpq : cv.p = q := by simpa using require_eq_ok hr
    obtain ⟨p1, h1, l1⟩ := hi.fieldsInRange a X (needF_eq_ok hX)
    obtain ⟨p2, h2, l2⟩ := hi.fieldsInRange b Y (needF_eq_ok hY)
    rw [primeOf_of_curveOf hcv] at h1
    cases h1
    rw [hq] at h2
    cases h2
    exact ⟨curve0_of_curveOf hcv, cv.p, primeOf_of_curveOf hcv, l1, hpq ▸ l2⟩
  | pinf d sel =>
    refine (lawful_bind (require_ne (by decide)) fun _ hr =>
      lawful_ok (.point _ _ _ _ rfl fun hi => ?_)).finish_cases h
    have hr : sel = .secp ∨ s.curve0.isSome = true := by simpa using require_eq_ok hr
    cases sel with
    | secp => exact ⟨by simp, pSecp, rfl, trivial⟩
    | prog =>
      have hs : s.curve0.isSome := by simpa using hr
      obtain ⟨cv, hcv⟩ := curveOf_prog_of_inv hi hs
      exact ⟨fun _ => hs, cv.p, primeOf_of_curveOf hcv, trivial⟩
  | pldg d =>
    have hb : Coords.Below pSecp (.finite (BitVec.ofNat 256 gx) (BitVec.ofNat 256 gy)) := ⟨by decide, by decide⟩
    exact (lawful_ok (.point _ d _ { c := .secp, pt := .finite _ _ } rfl fun _ =>
      ⟨by simp, pSecp, rfl, hb⟩)).finish_cases h
  | pgetx d a =>
    refine (lawful_bind (needP_ne s a) fun A hA => ?_).finish_cases h
    cases hpt : A.pt with
    | infinity => exact lawful_error (by decide)
    | finite x y =>
      refine lawful_ok (.field _ _ _ _ _ rfl fun hi => ?_)
      obtain ⟨-, p, hp, hb⟩ := hi.point (needP_eq_ok hA)
      rw [hpt] at hb
      exact ⟨p, hp, hb.1⟩
  | pgety d a =>
    refine (lawful_bind (needP_ne s a) fun A hA => ?_).finish_cases h
    cases hpt : A.pt with
    | infinity => exact lawful_error (by decide)
    | finite x y =>
      refine lawful_ok (.field _ _ _ _ _ rfl fun hi => ?_)
      obtain ⟨-, p, hp, hb⟩ := hi.point (needP_eq_ok hA)
      rw [hpt] at hb
      exact ⟨p, hp, hb.2⟩
  | padd d a b =>
    exact (lawful_bind (needP_ne s a) fun A hA => lawful_bind (needP_ne s b) fun B hB =>
      lawful_bind (padd_ne s A B) fun R hR =>
      lawful_ok (.point _ _ _ _ rfl (padd_commits (needP_eq_ok hA) (needP_eq_ok hB) hR))).finish_cases h
  | pdbl d a =>
    exact (lawful_bind (needP_ne s a) fun A hA => lawful_bind (padd_ne s A A) fun R hR =>
      lawful_ok (.point _ _ _ _ rfl (padd_commits (needP_eq_ok hA) (needP_eq_ok hA) hR))).finish_cases h
  | pmul d a =>
    exact (lawful_bind (needP_ne s a) fun A hA => lawful_bind (smulLoop_ne s _ _ _ _) fun R hR =>
      lawful_ok (.point _ _ _ _ rfl (smul_commits (needP_eq_ok hA) hR))).finish_cases h
  | peq a b =>
    exact (lawful_bind (needP_ne s a) fun A _ => lawful_bind (needP_ne s b) fun B _ =>
      lawful_ok (.equalP a b s _)).finish_cases h
  | ptest a =>
    exact (lawful_bind (needP_ne s a) fun A _ => lawful_ok (.infinite a s _)).finish_cases h

/-- Everything the core's turn can do: nothing while idle; while busy, the error entry for an illegal word, or the
command the latched word spells. -/
theorem complete_cases {s t : State} (h : complete s = .next t) :
    (s.busy = false ∧ t = s) ∨
    (s.busy = true ∧ decode s.cmdLatch = none ∧ t = s.raise .illegalCommand) ∨
    (s.busy = true ∧ ∃ i, decode s.cmdLatch = some i ∧ exec i s = .next t) := by
  unfold complete at h
  split at h
  next hb =>
    unfold completeBusy fetch at h
    split at h
    next i hi => exact .inr (.inr ⟨hb, i, hi, h⟩)
    next hi => cases h; exact .inr (.inl ⟨hb, hi, rfl⟩)
  next hb => cases h; exact .inl ⟨by simpa using hb, rfl⟩

/-- Everything a step can do: the core's turn, a host read, a host write, or a reset. -/
theorem step_cases {s t : State} (h : step s = .next t) :
    (s.events = [] ∧ complete s = .next t) ∨
    (∃ rest, s.events = .complete :: rest ∧ complete { s with events := rest } = .next t) ∨
    (∃ a w rest, s.events = .busRead a :: rest ∧ t = { s with events := rest, readLog := w :: s.readLog }) ∨
    (∃ a d w rest, s.events = .busWrite a d :: rest ∧ portWord a = some w ∧
      t = writePort { s with events := rest } w d) ∨
    (∃ rest, s.events = .reset :: rest ∧ t = State.resetCore { s with events := rest }) := by
  unfold step move at h
  split at h
  next e rest he =>
    cases e with
    | busRead a =>
      simp only [happen, hostRead] at h
      split at h
      next w hw => cases h; exact .inr (.inr (.inl ⟨a, w, rest, he, rfl⟩))
      next => cases h
    | busWrite a d =>
      simp only [happen, hostWrite] at h
      split at h
      next w hw => cases h; exact .inr (.inr (.inr (.inl ⟨a, d, w, rest, he, hw, rfl⟩)))
      next => cases h
    | reset => cases h; exact .inr (.inr (.inr (.inr ⟨rest, he, rfl⟩)))
    | complete => exact .inr (.inl ⟨rest, he, h⟩)
  next he => exact .inl ⟨he, h⟩

end Sys2Proof.Machine
end

