-- ==== Sys2Proof/Laws/PerInstr.lean ====
section
/-! SUPPORT. Statements for all commands, one lemma per constructor. `EncodedWord`: the word the encoder writes for a
command matches a row of 30_encoding.md R95. -/

-- One proof at a time: each is a kernel evaluation, and many at once need a thread and its stack each.
set_option Elab.async false

namespace Sys2Proof.Laws.EncodedWord

/-- The word of a command is legal (R96), with its reserved field `Z` 0 (R92). -/
def Statement (i : Instr) : Prop := legal (encode i) = true ∧ (fieldsOf (encode i)).z = 0

theorem nop : Statement .nop := by unfold Statement; decide +kernel

theorem mset : Statement .mset := by unfold Statement; decide +kernel

theorem cset (x0 : FIdx) (x1 : FIdx) : Statement (.cset x0 x1) := by
  unfold Statement
  revert x0 x1; decide +kernel

theorem kldn : Statement .kldn := by unfold Statement; decide +kernel

theorem fcons (x0 : FIdx) (x1 : Slot) : Statement (.fcons x0 x1) := by
  unfold Statement
  cases x1 <;> (revert x0; decide +kernel)

theorem fget (x0 : FIdx) : Statement (.fget x0) := by
  unfold Statement
  revert x0; decide +kernel

theorem fadd (x0 : FIdx) (x1 : FIdx) (x2 : FIdx) : Statement (.fadd x0 x1 x2) := by
  unfold Statement
  revert x0 x1 x2; decide +kernel

theorem fsub (x0 : FIdx) (x1 : FIdx) (x2 : FIdx) : Statement (.fsub x0 x1 x2) := by
  unfold Statement
  revert x0 x1 x2; decide +kernel

theorem fmul (x0 : FIdx) (x1 : FIdx) (x2 : FIdx) : Statement (.fmul x0 x1 x2) := by
  unfold Statement
  revert x0 x1 x2; decide +kernel

theorem fpow (x0 : FIdx) (x1 : FIdx) (x2 : Bool) : Statement (.fpow x0 x1 x2) := by
  unfold Statement
  revert x0 x1 x2; decide +kernel

theorem finv (x0 : FIdx) (x1 : FIdx) : Statement (.finv x0 x1) := by
  unfold Statement
  revert x0 x1; decide +kernel

theorem fdiv (x0 : FIdx) (x1 : FIdx) (x2 : FIdx) : Statement (.fdiv x0 x1 x2) := by
  unfold Statement
  revert x0 x1 x2; decide +kernel

theorem feq (x0 : FIdx) (x1 : FIdx) : Statement (.feq x0 x1) := by
  unfold Statement
  revert x0 x1; decide +kernel

theorem fred (x0 : FIdx) : Statement (.fred x0) := by
  unfold Statement
  revert x0; decide +kernel

theorem pcons (x0 : PIdx) (x1 : FIdx) (x2 : FIdx) : Statement (.pcons x0 x1 x2) := by
  unfold Statement
  revert x0 x1 x2; decide +kernel

theorem pinf (x0 : PIdx) (x1 : Slot) : Statement (.pinf x0 x1) := by
  unfold Statement
  cases x1 <;> (revert x0; decide +kernel)

theorem pldg (x0 : PIdx) : Statement (.pldg x0) := by
  unfold Statement
  revert x0; decide +kernel

theorem pgetx (x0 : FIdx) (x1 : PIdx) : Statement (.pgetx x0 x1) := by
  unfold Statement
  revert x0 x1; decide +kernel

theorem pgety (x0 : FIdx) (x1 : PIdx) : Statement (.pgety x0 x1) := by
  unfold Statement
  revert x0 x1; decide +kernel

theorem padd (x0 : PIdx) (x1 : PIdx) (x2 : PIdx) : Statement (.padd x0 x1 x2) := by
  unfold Statement
  revert x0 x1 x2; decide +kernel

theorem pdbl (x0 : PIdx) (x1 : PIdx) : Statement (.pdbl x0 x1) := by
  unfold Statement
  revert x0 x1; decide +kernel

theorem pmul (x0 : PIdx) (x1 : PIdx) : Statement (.pmul x0 x1) := by
  unfold Statement
  revert x0 x1; decide +kernel

theorem peq (x0 : PIdx) (x1 : PIdx) : Statement (.peq x0 x1) := by
  unfold Statement
  revert x0 x1; decide +kernel

theorem ptest (x0 : PIdx) : Statement (.ptest x0) := by
  unfold Statement
  revert x0; decide +kernel

end Sys2Proof.Laws.EncodedWord
end

