-- ==== Sys2Proof/Machine/Asm.lean ====
section
/-! DEFINITION. The assembler syntax of 30_encoding.md R98: mnemonic, operands in the order RD, RS1, RS2 without the
unused ones, the modifier last. -/

namespace Sys2Proof.Machine

/-- The listing name of a field register (R98). -/
def fName (i : FIdx) : String := "F" ++ toString i.val

/-- The listing name of a point register (R98). -/
def pName (j : PIdx) : String := "P" ++ toString j.val

/-- The listing form of a slot selector (R98, R94). -/
def selName : Slot → String
  | .prog => "#0"
  | .secp => "#1"

/-- The operands of a command in listing order (R98). -/
def operandsOf : Instr → List String
  | .nop => []
  | .mset => []
  | .cset a b => [fName a, fName b]
  | .kldn => []
  | .fcons d sel => [fName d, selName sel]
  | .fget a => [fName a]
  | .fadd d a b => [fName d, fName a, fName b]
  | .fsub d a b => [fName d, fName a, fName b]
  | .fmul d a b => [fName d, fName a, fName b]
  | .fpow d a neg => [fName d, fName a, if neg then "#1" else "#0"]
  | .finv d a => [fName d, fName a]
  | .fdiv d a b => [fName d, fName a, fName b]
  | .feq a b => [fName a, fName b]
  | .fred d => [fName d]
  | .pcons d a b => [pName d, fName a, fName b]
  | .pinf d sel => [pName d, selName sel]
  | .pldg d => [pName d]
  | .pgetx d a => [fName d, pName a]
  | .pgety d a => [fName d, pName a]
  | .padd d a b => [pName d, pName a, pName b]
  | .pdbl d a => [pName d, pName a]
  | .pmul d a => [pName d, pName a]
  | .peq a b => [pName a, pName b]
  | .ptest a => [pName a]

/-- Operands joined as R98 writes them. -/
def joinOperands : List String → String
  | [] => ""
  | [x] => x
  | x :: xs => x ++ ", " ++ joinOperands xs

/-- One line of a listing (R98). -/
def asmLine (i : Instr) : String :=
  match operandsOf i with
  | [] => i.mnemonic
  | ops => i.mnemonic ++ " " ++ joinOperands ops

end Sys2Proof.Machine
end

