-- ==== Sys2Proof/Machine/HostProgram.lean ====
section
/-! DEFINITION. The host primitives and pseudo-instructions of 30_encoding.md R99 as lists of events. They are
host-side: "none is a command of the core". A host program (70_reset_and_hazards.md R312) is such a list, placed in
`State.events` from outside (log entry 7). -/

namespace Sys2Proof.Machine

/-- `WR off, v32` (R99). -/
def wr (off : Nat) (v : Word) : List Event := [.busWrite off v]

/-- `RD off` (R99). -/
def rd (off : Nat) : List Event := [.busRead off]

/-- `WAIT` (R99) in a run where `polls` reads of `STATUS` still see `BUSY = 1` before the core completes. -/
def wait (polls : Nat) : List Event := List.replicate polls (.busRead 0x004) ++ [.complete, .busRead 0x004]

/-- Eight writes of the words of `v` from `base` on (R99). -/
def setWide (base : Nat) (v : Value) : List Event :=
  [0, 1, 2, 3, 4, 5, 6, 7].map fun i : Fin 8 => .busWrite (base + 4 * i.val) (getWord v i)

/-- `SETL v` (R99): sets `DINL`. -/
def setL (v : Value) : List Event := setWide 0x020 v

/-- `SETH v` (R99): sets `DINH`. -/
def setH (v : Value) : List Event := setWide 0x040 v

/-- `SETK v` (R99): sets `K`. -/
def setK (v : Value) : List Event := setWide 0x060 v

/-- `GETD` (R99): eight reads of `DOUT`. -/
def getD : List Event := [0, 1, 2, 3, 4, 5, 6, 7].map fun i : Nat => .busRead (0x080 + 4 * i)

/-- `<COMMAND>` (R99): the write of its word to `CMD`, then `WAIT`. -/
def command (i : Instr) : List Event := .busWrite 0x000 (encode i) :: wait 0

/-- `LOADF Fd, #sel, v` (R99). -/
def loadF (fd : FIdx) (sel : Slot) (v : Value) : List Event := setL v ++ command (.fcons fd sel)

/-- `READF Fs` (R99). -/
def readF (fs : FIdx) : List Event := command (.fget fs) ++ getD

/-- `FSQR Fd, Fs` (R99). -/
def fsqr (fd fs : FIdx) : List Event := command (.fmul fd fs fs)

/-- `FNEG Fd, Fs` (R99) through a register `ft` for the zero it needs. -/
def fneg (fd fs ft : FIdx) (sel : Slot) : List Event := loadF ft sel 0 ++ command (.fsub fd ft fs)

/-- `ERRCLR` (R99), keeping the interrupt enables in `keep`. -/
def errClr (keep : Word) : List Event := [.busWrite 0x008 (0x00000100 ||| keep)]

end Sys2Proof.Machine
end

