-- ==== Sys2Proof/Tests/Slice0.lean ====
section
/-! SUPPORT. The model's own tests. `V<n>`, `P<n>` name the vectors and programs of 95_test_vectors.md, from which the
expected results are taken. The first part decodes words written out from 30_encoding.md; the second runs one step
per test; the third shows, for every statement with hypotheses, a state and operands that meet them. -/

-- One proof at a time: each is a kernel evaluation, and many at once need a thread and its stack each.
set_option Elab.async false

namespace Sys2Proof.Tests

open Sys2Proof Sys2Proof.Machine Sys2Proof.Spec

/-! ### Small states -/

/-- The next state, if that is what a step answers. -/
def nextOf : Outcome → Option State
  | .next s => some s
  | .fault _ => none
  | .refused _ => none

/-- `s` with the word `w` accepted and nothing pending. -/
def busyWith (w : Word) (s : State) : State := { s with cmdLatch := w, busy := true, done := false, events := [] }

/-- What the step that executes the word `w` leaves. -/
def after (w : Word) (s : State) : Option State := nextOf (step (busyWith w s))

/-- `STATUS` after the step that executes the word `w`. -/
def statusAfter (w : Word) (s : State) : Option Word := (after w s).map State.statusWord

/-- A field register after that step; the outer `Option` is the step's. -/
def fAfter (w : Word) (i : FIdx) (s : State) : Option (Option FieldRec) := (after w s).map (·.F[i])

/-- A point register after that step. -/
def pAfter (w : Word) (j : PIdx) (s : State) : Option (Option PointRec) := (after w s).map (·.P[j])

/-- `s` with the one event `e` pending. -/
def pending (e : Event) (s : State) : State := { s with events := [e] }

/-- A valid slot-0 and slot-1 element. -/
def f0 (v : Value) : Option FieldRec := some { m := .prog, num := v }
def f1 (v : Value) : Option FieldRec := some { m := .secp, num := v }

/-- A valid finite slot-0 point, the two points at infinity, the generator. -/
def p0 (x y : Value) : Option PointRec := some { c := .prog, pt := .finite x y }
def inf0 : Option PointRec := some { c := .prog, pt := .infinity }
def inf1 : Option PointRec := some { c := .secp, pt := .infinity }
def gen : Option PointRec := some { c := .secp, pt := .finite (BitVec.ofNat 256 gx) (BitVec.ofNat 256 gy) }

/-- The set-up of V1: `PMOD = 13`, `F0 = (0, 7)`, `F1 = (0, 12)`; `F2 = (1, 7)` and `F3 = (0, 0)` beside it. -/
def t13 : State :=
  { State.reset with pmod := some 13, F := #v[f0 7, f0 12, f1 7, f0 0, none, none, none, none], dinl := 12 }

/-- Set-up A of V25 to V34: `PMOD = 223`, `CURVE0 = (5, 7)`, with the points of program P2 and `G`. -/
def tA : State :=
  { State.reset with
    pmod := some 223, curve0 := some { a := 5, b := 7 }
    F := #v[f0 5, f0 7, f0 2, f0 5, f1 5, f0 222, none, f0 4]
    P := #v[p0 2 5, p0 222 222, inf0, gen], dinl := 223 }

/-- Set-up B of V35, V41: `PMOD = 223`, `CURVE0 = (0, 7)`, `P0 = (47, 71)`. -/
def tB : State :=
  { State.reset with
    pmod := some 223, curve0 := some { a := 0, b := 7 }
    P := #v[p0 47 71, p0 47 152, p0 17 56, none], K := 2 }

/-- The set-up of V47: `PMOD = 2`, `CURVE0 = (0, 1)`, `P0 = (0, 1)`, where `PDBL` divides by zero. -/
def t2 : State :=
  { State.reset with pmod := some 2, curve0 := some { a := 0, b := 1 }, P := #v[p0 0 1, p0 1 0, none, none], K := 1 }

/-- `P_SECP` as a register value. -/
def pWide : Value := 0xFFFFFFFFFFFFFFFFFFFFFFFFFFFFFFFFFFFFFFFFFFFFFFFFFFFFFFFEFFFFFC2F

/-- A core with an uncleared error (R264). -/
def tErr : State := { t13 with err := true, done := true, errCode := 5, errCmd := 0x17201000 }

/-! ### Decoding: every command's word written out from R92 and R95, field by field -/

theorem test_decode_nop : decode 0b00000001_0000_0000_0000_00000000000_0 = some .nop := by decide
theorem test_decode_mset : decode 0b00000010_0000_0000_0000_00000000000_0 = some .mset := by decide
theorem test_decode_cset : decode 0b00000011_0000_0110_0111_00000000000_0 = some (.cset 6 7) := by decide
theorem test_decode_kldn : decode 0b00000100_0000_0000_0000_00000000000_0 = some .kldn := by decide
theorem test_decode_fcons : decode 0b00010000_0101_0000_0000_00000000000_1 = some (.fcons 5 .secp) := by decide
theorem test_decode_fget : decode 0b00010001_0000_0111_0000_00000000000_0 = some (.fget 7) := by decide
theorem test_decode_fadd : decode 0b00010010_0010_0000_0001_00000000000_0 = some (.fadd 2 0 1) := by decide
theorem test_decode_fsub : decode 0b00010011_0011_0001_0000_00000000000_0 = some (.fsub 3 1 0) := by decide
theorem test_decode_fmul : decode 0b00010100_0111_0000_0110_00000000000_0 = some (.fmul 7 0 6) := by decide
theorem test_decode_fpow : decode 0b00010101_0011_0010_0000_00000000000_1 = some (.fpow 3 2 true) := by decide
theorem test_decode_finv : decode 0b00010110_0101_0100_0000_00000000000_0 = some (.finv 5 4) := by decide
theorem test_decode_fdiv : decode 0b00010111_0101_0000_0001_00000000000_0 = some (.fdiv 5 0 1) := by decide
theorem test_decode_feq : decode 0b00011000_0000_0010_0100_00000000000_0 = some (.feq 2 4) := by decide
theorem test_decode_fred : decode 0b00011001_0011_0000_0000_00000000000_0 = some (.fred 3) := by decide
theorem test_decode_pcons : decode 0b00100000_0011_0100_0101_00000000000_0 = some (.pcons 3 4 5) := by decide
theorem test_decode_pinf : decode 0b00100001_0011_0000_0000_00000000000_1 = some (.pinf 3 .secp) := by decide
theorem test_decode_pldg : decode 0b00100010_0011_0000_0000_00000000000_0 = some (.pldg 3) := by decide
theorem test_decode_pgetx : decode 0b00100011_0110_0010_0000_00000000000_0 = some (.pgetx 6 2) := by decide
theorem test_decode_pgety : decode 0b00100100_0111_0010_0000_00000000000_0 = some (.pgety 7 2) := by decide
theorem test_decode_padd : decode 0b00100101_0011_0001_0010_00000000000_0 = some (.padd 3 1 2) := by decide
theorem test_decode_pdbl : decode 0b00100110_0010_0001_0000_00000000000_0 = some (.pdbl 2 1) := by decide
theorem test_decode_pmul : decode 0b00100111_0001_0010_0000_00000000000_0 = some (.pmul 1 2) := by decide
theorem test_decode_peq : decode 0b00101000_0000_0010_0011_00000000000_0 = some (.peq 2 3) := by decide
theorem test_decode_ptest : decode 0b00101001_0000_0011_0000_00000000000_0 = some (.ptest 3) := by decide

/-! ### Ill-formed words (V52): one for each check of R92 and R96, refused by the table and by the decoder -/

theorem test_illegal_opcode_zero : legal 0x00000000 = false ∧ decode 0x00000000 = none := by decide
theorem test_illegal_opcode_unassigned : legal 0x05000000 = false ∧ decode 0x05000000 = none := by decide
theorem test_illegal_all_ones : legal 0xFFFFFFFF = false ∧ decode 0xFFFFFFFF = none := by decide
theorem test_illegal_field_register_8 : legal 0x12801000 = false ∧ decode 0x12801000 = none := by decide
theorem test_illegal_point_register_4 : legal 0x25400000 = false ∧ decode 0x25400000 = none := by decide
theorem test_illegal_modifier : legal 0x12201001 = false ∧ decode 0x12201001 = none := by decide
theorem test_illegal_reserved_field : legal 0x12201002 = false ∧ decode 0x12201002 = none := by decide
theorem test_illegal_unused_rd : legal 0x01100000 = false ∧ decode 0x01100000 = none := by decide
theorem test_illegal_unused_rd_of_fget : legal 0x11100000 = false ∧ decode 0x11100000 = none := by decide
theorem test_illegal_unused_rs2 : legal 0x29001000 = false ∧ decode 0x29001000 = none := by decide

/-- R98's own listing lines. -/
theorem test_listing : asmLine (.fadd 2 0 1) = "FADD F2, F0, F1" ∧ asmLine (.fpow 3 0 true) = "FPOW F3, F0, #1" := by
  decide

/-! ### One step of each command -/

/-- V20. -/
theorem test_nop : after 0x01000000 t13 = some { t13 with cmdLatch := 0x01000000, done := true } := by decide +kernel

/-- V22: `MSET` of the same value still invalidates every slot-0 value, and leaves slot 1. -/
theorem test_mset : (after 0x02000000 tA).map (fun t => (t.curve0, t.F[4], t.F[0], t.P[0], t.P[3])) =
    some (none, f1 5, none, none, gen) := by decide +kernel

/-- V21: 1 is no modulus. -/
theorem test_mset_one : statusAfter 0x02000000 { State.reset with dinl := 1 } = some 0x00000706 := by decide +kernel

/-- V23. -/
theorem test_cset : (after 0x03001000 tA).map (fun t => (t.curve0, t.F[0], t.P[0], t.P[2], t.P[3])) =
    some (some { a := 5, b := 7 }, f0 5, none, none, gen) := by decide +kernel

/-- V24: an element of another prime. -/
theorem test_cset_mismatch : statusAfter 0x03002000 t13 = some 0x00000306 := by decide +kernel

/-- V46. -/
theorem test_kldn : (after 0x04000000 State.reset).map (fun t => (getWord t.K 0, getWord t.K 3, t.statusWord)) =
    some (0xD0364141, 0xBAAEDCE6, 0x00000002) := by decide +kernel

/-- V9: the largest element, and the prime itself. -/
theorem test_fcons : fAfter 0x10000000 0 t13 = some (f0 12) := by decide +kernel
theorem test_fcons_range : (after 0x10000000 { t13 with dinl := 13 }).map (fun t => (t.statusWord, t.errCmd, t.F[0])) =
    some (0x00000106, 0x10000000, f0 7) := by decide +kernel

/-- V17. -/
theorem test_fget : (after 0x11010000 t13).map (fun t => (getWord t.dout 0, getWord t.dout 1)) = some (12, 0) := by
  decide +kernel

/-- V1; V12. -/
theorem test_fadd : fAfter 0x12201000 2 t13 = some (f0 6) := by decide +kernel
theorem test_fadd_mismatch : statusAfter 0x12402000 t13 = some 0x00000306 := by decide +kernel

/-- V2, both orders. -/
theorem test_fsub : fAfter 0x13301000 3 t13 = some (f0 8) := by decide +kernel
theorem test_fsub_other_way : fAfter 0x13310000 3 t13 = some (f0 5) := by decide +kernel

/-- V3; V11: `(p - 1)²` is 1. -/
theorem test_fmul : fAfter 0x14401000 4 t13 = some (f0 6) := by decide +kernel
theorem test_fmul_secp :
    fAfter 0x14100000 1 { State.reset with F := State.reset.F.set 0 (f1 (pWide - 1)) } = some (f1 1) := by
  decide +kernel

/-- V8: `K = 2^256 - 1`, as it is and negated. -/
theorem test_fpow : fAfter 0x15300000 3 { t13 with K := -1 } = some (f0 5) := by decide +kernel
theorem test_fpow_neg : fAfter 0x15300001 3 { t13 with K := -1 } = some (f0 8) := by decide +kernel

/-- V5; V13. -/
theorem test_finv : fAfter 0x16600000 6 t13 = some (f0 2) := by decide +kernel
theorem test_finv_zero : (after 0x16230000 t13).map (fun t => (t.statusWord, t.errCmd)) =
    some (0x00000506, 0x16230000) := by decide +kernel

/-- V4; V12: the mismatch is checked before the zero divisor. -/
theorem test_fdiv : fAfter 0x17501000 5 t13 = some (f0 6) := by decide +kernel
theorem test_fdiv_mismatch_first :
    statusAfter 0x17502000 { t13 with F := t13.F.set 2 (f1 0) } = some 0x00000306 := by decide +kernel

/-- V10; V18: equal primes under different tags compare equal. -/
theorem test_feq_other_prime : statusAfter 0x18002000 t13 = some 0x00000002 := by decide +kernel
theorem test_feq_same_prime :
    statusAfter 0x18002000 { t13 with pmod := some pWide } = some 0x00000012 := by decide +kernel

/-- V48, the last row and the largest input. -/
theorem test_fred : fAfter 0x19300000 3 { State.reset with
      dinh := 0xFFFFFFFFFFFFFFFFFFFFFFFFFFFFFFFFFFFFFFFFFFFFFFFFFFFFFFFDFFFFF85C
      dinl := 0x00000000000000000000000000000000000000000000000000000001000007A4000E9844 } = some (f1 1) := by
  decide +kernel
theorem test_fred_largest : fAfter 0x19300000 3 { State.reset with dinh := -1, dinl := -1 } =
    some (f1 0x1000007A2000E90A0) := by decide +kernel

/-- V25. -/
theorem test_pcons : pAfter 0x20123000 1 tA = some (p0 2 5) := by decide +kernel
theorem test_pcons_off_curve : (after 0x20127000 tA).map (fun t => (t.statusWord, t.P[1])) =
    some (0x00000206, p0 222 222) := by decide +kernel

/-- V36. -/
theorem test_pinf : pAfter 0x21000001 0 State.reset = some inf1 := by decide +kernel
theorem test_pinf_no_curve : statusAfter 0x21000000 State.reset = some 0x00000606 := by decide +kernel

/-- V44. -/
theorem test_pldg : pAfter 0x22100000 1 tA = some gen := by decide +kernel

/-- V32, on the point `(2, 5)`. -/
theorem test_pgetx : fAfter 0x23600000 6 tA = some (f0 2) := by decide +kernel
theorem test_pgety : fAfter 0x24600000 6 tA = some (f0 5) := by decide +kernel
theorem test_pgetx_infinity : statusAfter 0x23620000 tA = some 0x00000606 := by decide +kernel

/-- V26, with the destination a source too; V34: the mismatch is tested before the identity case. -/
theorem test_padd : pAfter 0x25001000 0 tA = some (p0 3 216) := by decide +kernel
theorem test_padd_mismatch : statusAfter 0x25023000 tA = some 0x00000406 := by decide +kernel

/-- V29; V47. -/
theorem test_pdbl : pAfter 0x26100000 1 tA = some (p0 126 141) := by decide +kernel
theorem test_pdbl_division_by_zero : statusAfter 0x26100000 t2 = some 0x00000506 := by decide +kernel

/-- V41: 20 times a point of order 21; V47: the unused last doubling raises. -/
theorem test_pmul : pAfter 0x27100000 1 { tB with K := 20 } = some (p0 47 152) := by decide +kernel
theorem test_pmul_last_doubling : statusAfter 0x27100000 t2 = some 0x00000506 := by decide +kernel

/-- V33. -/
theorem test_peq : statusAfter 0x28000000 tA = some 0x00000012 := by decide +kernel
theorem test_peq_other_curve : statusAfter 0x28023000 { tA with P := tA.P.set 3 inf1 } = some 0x00000002 := by
  decide +kernel

/-- V31. -/
theorem test_ptest : statusAfter 0x29020000 tA = some 0x00000022 := by decide +kernel
theorem test_ptest_finite : statusAfter 0x29000000 { tA with infFlag := true } = some 0x00000002 := by decide +kernel

/-- V52: an illegal word. -/
theorem test_illegal_raises : (after 0x12201001 t13).map (fun t => (t.statusWord, t.errCmd)) =
    some (0x00000806, 0x12201001) := by decide +kernel

/-! ### The host's port -/

/-- V55: only word 0 of `DINL` is replaced. -/
theorem test_data_word : (nextOf (step (pending (.busWrite 0x020 5) { State.reset with dinl := 0x100000007 }))).map
    (·.dinl) = some 0x100000005 := by decide +kernel

/-- V56: a read-only word. -/
theorem test_read_only : nextOf (step (pending (.busWrite 0x004 0xFF) t13)) = some t13 := by decide +kernel

/-- R64: a misaligned access and one outside the window are no host steps. -/
theorem test_misaligned : busRead t13 0x002 = none ∧ busRead t13 0x400 = none ∧ busRead t13 0x3FC = some 0 := by
  decide +kernel

/-- R64 at the step: the access is refused by name, and an idle core's turn does nothing (R120). -/
theorem test_refused : step (pending (.busWrite 0x400 5) t13) = .refused (.notAHostStep 0x400) := rfl
theorem test_idle_turn : nextOf (step (pending .complete { t13 with cmdLatch := 0x12201000 })) =
    some { t13 with cmdLatch := 0x12201000 } := by decide +kernel

/-- Program P1's first line as R99 spells it: `SETL 13`, eight writes, word 0 first. -/
theorem test_setl : (setL 13).take 2 = [.busWrite 0x020 13, .busWrite 0x024 0] ∧ (setL 13).length = 8 := by
  decide +kernel

/-- The host's probe: the placed word is executed by the very next step. -/
theorem test_with_fetch_word : (nextOf (step (State.reset.withFetchWord 32 0x22000000))).map (·.P[(0 : PIdx)]) =
    some gen := by decide +kernel

/-! ### Witnesses: states and operands that meet the hypotheses of each statement

`wit_<Statement>` meets the hypotheses of the first clause that has any, the further ones those of the other clauses. -/

theorem wit_EncodeDecodeRoundTrip : decode 0x25313000 = some (.padd 3 1 3) := by decide

theorem wit_DecodeAgreesWithOpcodeMap_legal : decode 0x15300001 = some (.fpow 3 0 true) := by decide

theorem wit_DecodeAgreesWithOpcodeMap_illegal : decode 0x25400000 = none := by decide

theorem wit_StepExecutesLatchedCommand : (busyWith 0x12201000 t13).busy = true ∧
    decode (busyWith 0x12201000 t13).cmdLatch = some (.fadd 2 0 1) ∧ (busyWith 0x12201000 t13).events = [] := by decide

theorem wit_StepExecutesLatchedCommand_turn :
    let s := { busyWith 0x12201000 t13 with events := [.complete, .busRead 4] }
    s.busy = true ∧ decode s.cmdLatch = some (.fadd 2 0 1) ∧ s.events = .complete :: [.busRead 4] := by decide

theorem wit_StepExecutesLatchedCommand_idle : t13.busy = false ∧ t13.events = [] := by decide

theorem wit_StepExecutesLatchedCommand_idle_turn : let s := pending .complete { t13 with cmdLatch := 0x12201000 }
    s.busy = false ∧ s.events = .complete :: [] := by decide

theorem wit_AcceptLatchesTheWord : let s := pending (.busWrite 0x000 0x12201000) t13
    s.busy = false ∧ s.err = false ∧ s.events = .busWrite 0x000 0x12201000 :: [] := by decide

theorem wit_IllegalWordRaises : let s := busyWith 0x12201001 t13
    s.busy = true ∧ s.events = [] ∧ ∀ r ∈ opcodeMap, s.cmdLatch &&& r.mask ≠ r.value := by decide

theorem wit_ErrorsArePrecise : let s := busyWith 0x16230000 t13
    s.busy = true ∧ s.err = false ∧ s.events = [] ∧ ∃ t, step s = .next t ∧ t.err = true :=
  ⟨rfl, rfl, rfl, _, rfl, by decide +kernel⟩

theorem wit_OnlyBadAccessesAreRefused_read : (0x002 % 4 ≠ 0 ∨ 0x400 ≤ 0x002) ∧
    (pending (.busRead 0x002) t13).events = .busRead 0x002 :: [] := by decide

theorem wit_OnlyBadAccessesAreRefused_write : (0x400 % 4 ≠ 0 ∨ 0x400 ≤ 0x400) ∧
    (pending (.busWrite 0x400 5) t13).events = .busWrite 0x400 5 :: [] := by decide

theorem wit_OnlyBadAccessesAreRefused_next : ∀ (addr : Nat) (d : Word) (rest : List Event),
    (pending (.busRead 0x3FC) t13).events = .busRead addr :: rest ∨
      (pending (.busRead 0x3FC) t13).events = .busWrite addr d :: rest → addr % 4 = 0 ∧ addr < 0x400 := by
  intro addr d rest h
  simp only [pending, List.cons.injEq, Event.busRead.injEq, reduceCtorEq, false_and, or_false] at h
  omega

theorem wit_FlagsOnlyByComparisons : ∃ t, exec (.feq 0 0) t13 = .next t ∧ t.eqFlag ≠ t13.eqFlag :=
  ⟨_, rfl, by decide +kernel⟩

theorem wit_FlagsOnlyByComparisons_inf : ∃ t, exec (.ptest 2) tA = .next t ∧ t.infFlag ≠ tA.infFlag :=
  ⟨_, rfl, by decide +kernel⟩

theorem wit_FlagsOnlyByComparisons_err : ∃ t, exec (.peq 0 3) tB = .next t ∧ t.err ≠ tB.err :=
  ⟨_, rfl, by decide +kernel⟩

theorem wit_FlagsOnlyByComparisons_port : let s := pending (.busWrite 0x008 0x100) tErr
    s.events = .busWrite 0x008 0x100 :: [] ∧ (Event.busWrite 0x008 0x100).isPlainAccess = true ∧
      ∃ t, step s = .next t := ⟨rfl, by decide, _, rfl⟩

theorem wit_WideRegistersFrame : ∃ t, exec .mset t13 = .next t ∧ t.pmod ≠ t13.pmod := ⟨_, rfl, by decide +kernel⟩

theorem wit_WideRegistersFrame_curve0 : ∃ t, exec (.cset 1 0) tA = .next t ∧ t.curve0 ≠ tA.curve0 :=
  ⟨_, rfl, by decide +kernel⟩

theorem wit_WideRegistersFrame_K : ∃ t, exec .kldn t13 = .next t ∧ t.K ≠ t13.K := ⟨_, rfl, by decide +kernel⟩

theorem wit_WideRegistersFrame_dout : ∃ t, exec (.fget 0) t13 = .next t ∧ t.dout ≠ t13.dout :=
  ⟨_, rfl, by decide +kernel⟩

theorem wit_FieldRegistersFrame : ∃ t, exec (.fadd 7 0 1) t13 = .next t ∧ destF (.fadd 7 0 1) ≠ some 0 :=
  ⟨_, rfl, by decide⟩

theorem wit_FieldRegistersFrame_dest : ∃ t, exec (.fadd 7 0 1) t13 = .next t ∧ destF (.fadd 7 0 1) = some 7 :=
  ⟨_, rfl, by decide⟩

theorem wit_PointRegistersFrame : ∃ t, exec (.padd 3 0 1) tA = .next t ∧ destP (.padd 3 0 1) ≠ some 0 :=
  ⟨_, rfl, by decide⟩

theorem wit_PointRegistersFrame_dest : ∃ t, exec (.padd 3 0 1) tA = .next t ∧ destP (.padd 3 0 1) = some 3 :=
  ⟨_, rfl, by decide⟩

theorem wit_AbsentSourceRaises : ∃ a ∈ sourcesF (.fadd 0 1 7), t13.F[a] = none := ⟨7, by decide, by decide⟩

theorem wit_AbsentSourceRaises_point : ∃ a ∈ sourcesP (.padd 0 0 3), tB.P[a] = none := ⟨3, by decide, by decide⟩

theorem wit_DiscardedWritesSetOvr_busy : let s := { busyWith 0x12201000 t13 with events := [.busWrite 0x07C 1] }
    s.events = .busWrite 0x07C 1 :: [] ∧ s.busy = true ∧ (0x07C % 4 = 0 ∧ 0x020 ≤ 0x07C ∧ 0x07C < 0x080) := by decide

theorem wit_DiscardedWritesSetOvr_error : let s := pending (.busWrite 0x000 0x01000000) tErr
    s.events = .busWrite 0x000 0x01000000 :: [] ∧ s.busy = false ∧ s.err = true := by decide

theorem wit_DiscardedWritesSetOvr_stays : let s := { pending (.busWrite 0x008 0x500) tErr with ovr := true }
    s.ovr = true ∧ (∃ t, step s = .next t) ∧ (∀ rest, s.events ≠ .reset :: rest) ∧
      ∀ d rest, s.events = .busWrite 0x008 d :: rest → d.getLsbD 9 = false ∧ d.getLsbD 31 = false := by
  refine ⟨rfl, ⟨_, rfl⟩, by simp [pending], ?_⟩
  intro d rest h
  simp only [pending, List.cons.injEq, Event.busWrite.injEq] at h
  rw [← h.1.2]
  decide

theorem wit_DataWordWrite : let s := pending (.busWrite (0x020 + 4 * (7 : Fin 8).val) 9) t13
    s.busy = false ∧ s.events = .busWrite (0x020 + 4 * (7 : Fin 8).val) 9 :: [] := by decide

theorem wit_DataWordWrite_dinh : let s := pending (.busWrite (0x040 + 4 * (0 : Fin 8).val) 9) t13
    s.busy = false ∧ s.events = .busWrite (0x040 + 4 * (0 : Fin 8).val) 9 :: [] := by decide

theorem wit_DataWordWrite_K : let s := pending (.busWrite (0x060 + 4 * (7 : Fin 8).val) 9) t13
    s.busy = false ∧ s.events = .busWrite (0x060 + 4 * (7 : Fin 8).val) 9 :: [] := by decide

theorem wit_CtrlWrite : (pending (.busWrite 0x008 0x00000703) tErr).events = .busWrite 0x008 0x00000703 :: [] ∧
    (0x00000703 : Word).getLsbD 31 = false := by decide

theorem wit_CtrlWrite_reset : (pending (.busWrite 0x008 0x80000103) tErr).events = .busWrite 0x008 0x80000103 :: [] ∧
    (0x80000103 : Word).getLsbD 31 = true := by decide

theorem wit_CtrlWrite_read : (pending (.busRead 0x008) tErr).events = .busRead 0x008 :: [] := by decide

theorem wit_ResetFromEveryState : { busyWith 0x12201000 t13 with events := [.reset] }.events = .reset :: [] := by decide

theorem wit_ResetFromEveryState_soft : let s := pending (.busWrite 0x008 0x80000000) tErr
    s.events = .busWrite 0x008 0x80000000 :: [] ∧ (0x80000000 : Word).getLsbD 31 = true := by decide

theorem wit_ReservedAndReadOnlyWords : 0x3FC % 4 = 0 ∧ (0x0A0 ≤ 0x3FC ∧ 0x3FC < 0x400) ∧
    (pending (.busWrite 0x3FC 5) t13).events = .busWrite 0x3FC 5 :: [] := by decide

theorem wit_ReservedAndReadOnlyWords_low : 0x01C % 4 = 0 ∧ (0x010 ≤ 0x01C ∧ 0x01C < 0x020) ∧
    (pending (.busRead 0x01C) t13).events = .busRead 0x01C :: [] := by decide

theorem wit_ReservedAndReadOnlyWords_readOnly : 0x09C % 4 = 0 ∧ (0x080 ≤ 0x09C ∧ 0x09C < 0x0A0) ∧
    (pending (.busWrite 0x09C 5) t13).events = .busWrite 0x09C 5 :: [] := by decide

theorem wit_ReservedAndReadOnlyWords_cmd : (pending (.busRead 0x000) t13).events = .busRead 0x000 :: [] := by decide

theorem wit_ReadReturnsTheWord_status : (pending (.busRead 0x004) tErr).events = .busRead 0x004 :: [] ∧
    0x004 % 4 = 0 ∧ 0x004 < 0x400 := by decide

theorem wit_ReadReturnsTheWord_errcmd : (pending (.busRead 0x00C) tErr).events = .busRead 0x00C :: [] ∧
    0x00C % 4 = 0 ∧ 0x00C < 0x400 := by decide

theorem wit_ReadReturnsTheWord_wide :
    (∀ b ∈ [0x020, 0x040, 0x060, 0x080], (pending (.busRead (b + 4 * (7 : Fin 8).val)) t13).events =
      .busRead (b + 4 * (7 : Fin 8).val) :: [] ∧ (b + 4 * (7 : Fin 8).val) % 4 = 0 ∧
      b + 4 * (7 : Fin 8).val < 0x400) := by decide

/-! The invariants of R35 as a check that can be evaluated, for the statements that assume them. -/

/-- `belowPrime` evaluated. -/
def belowCheck (s : State) (m : Slot) (v : Value) : Bool :=
  match primeOf s m with
  | some p => v.toNat < p
  | none => false

theorem belowCheck_sound {s : State} {m : Slot} {v : Value} (h : belowCheck s m v = true) : belowPrime s m v := by
  unfold belowCheck at h
  split at h
  next p hp => exact ⟨p, hp, by simpa using h⟩
  · simp at h

/-- R35 (a), (b) for one field register. -/
def fieldCheck (s : State) : Option FieldRec → Bool
  | some r => belowCheck s r.m r.num
  | none => true

/-- R35 (d), (e) for one point register. -/
def pointCheck (s : State) : Option PointRec → Bool
  | some r => (r.c = .secp || s.curve0.isSome) &&
    match r.pt with
    | .finite x y => belowCheck s r.c x && belowCheck s r.c y
    | .infinity => true
  | none => true

/-- R35 (c). -/
def curveCheck (s : State) : Bool :=
  match s.curve0 with
  | some c => belowCheck s .prog c.a && belowCheck s .prog c.b
  | none => true

/-- R35 (f). -/
def modulusCheck (s : State) : Bool :=
  match s.pmod with
  | some v => 2 ≤ v.toNat
  | none => true

theorem inv_of_checks {s : State} (hF : ∀ i : FIdx, fieldCheck s s.F[i] = true)
    (hP : ∀ j : PIdx, pointCheck s s.P[j] = true) (hc : curveCheck s = true) (hm : modulusCheck s = true)
    (hb : s.busy = true → s.err = false ∧ s.done = false) (hn : s.err = false → s.errCode = 0 ∧ s.errCmd = 0)
    (he : s.err = true → 1 ≤ s.errCode.toNat ∧ s.errCode.toNat ≤ 8) : s.Inv where
  fieldsInRange i r h := by
    have := hF i
    rw [h] at this
    exact belowCheck_sound this
  curveInRange c h := by
    simp only [curveCheck, h, Bool.and_eq_true] at hc
    exact ⟨belowCheck_sound hc.1, belowCheck_sound hc.2⟩
  pointsHaveCurve j r h hr := by
    have := hP j
    rw [h] at this
    simp only [pointCheck, hr, Bool.and_eq_true] at this
    simpa using this.1
  pointsInRange j r x y h hp := by
    have := hP j
    rw [h] at this
    simp only [pointCheck, hp, Bool.and_eq_true] at this
    exact ⟨belowCheck_sound this.2.1, belowCheck_sound this.2.2⟩
  modulusAtLeastTwo v h := by
    simpa [modulusCheck, h] using hm
  busyIsClean := hb
  noErrorNoRecord := hn
  errorHasCode := he

theorem tA_inv : tA.Inv := by apply inv_of_checks <;> decide +kernel

theorem tB_inv : tB.Inv := by apply inv_of_checks <;> decide +kernel

theorem t2_inv : t2.Inv := by apply inv_of_checks <;> decide +kernel

/-- The busy state of the next two witnesses: an uncleared error apart, all kinds of register hold a value. -/
def tBusy : State := { busyWith 0x25201000 tA with events := [.busWrite 0x060 1, .busWrite 0x008 0x00000103, .complete] }

theorem tBusy_inv : tBusy.Inv := by apply inv_of_checks <;> decide +kernel

theorem wit_OperandsAreThoseAtAccept : tBusy.Inv ∧ tBusy.busy = true ∧
    tBusy.events = [.busWrite 0x060 1, .busWrite 0x008 0x00000103] ++ [.complete] ∧
    ∀ e ∈ [Event.busWrite 0x060 1, Event.busWrite 0x008 0x00000103], e.isPlainAccess = true :=
  ⟨tBusy_inv, rfl, rfl, by decide⟩

theorem wit_ErrorLocksOutCommands : let s := { tErr with events := [.busWrite 0x000 0x01000000, .complete, .busRead 4] }
    s.busy = false ∧ s.err = true ∧ s.events = [.busWrite 0x000 0x01000000, .complete, .busRead 4] ∧
      ∀ e ∈ s.events, e.keepsError = true := by decide

theorem wit_InterruptLevel : ∃ t, exec (.fadd 2 0 1) { t13 with ieDone := true } = .next t := ⟨_, rfl⟩

theorem wit_InterruptLevel_accept : let s := pending (.busWrite 0x000 0x01000000) { t13 with done := true, ieDone := true }
    s.events = .busWrite 0x000 0x01000000 :: [] ∧ s.busy = false ∧ s.err = false ∧ ∃ t, step s = .next t :=
  ⟨rfl, rfl, rfl, _, rfl⟩

theorem wit_InterruptLevel_clear : let s := pending (.busWrite 0x008 0x00000503) { tErr with ieErr := true }
    s.events = .busWrite 0x008 0x00000503 :: [] ∧ (0x00000503 : Word).getLsbD 8 = true ∧
      (0x00000503 : Word).getLsbD 10 = true ∧ ∃ t, step s = .next t := ⟨rfl, by decide, by decide, _, rfl⟩

theorem wit_InterruptLevel_reset : let s := pending .reset tErr
    s.events = .reset :: [] ∧ ∃ t, step s = .next t := ⟨rfl, _, rfl⟩

theorem wit_StepKeepsInvariants : tBusy.Inv ∧ ∃ t, step tBusy = .next t := ⟨tBusy_inv, _, rfl⟩

theorem wit_EveryRunMeetsInvariants : ∃ t,
    Host.Core.run Sys2Proof.core 2 { State.reset with events := [.busWrite 0x020 13, .busWrite 0x000 0x02000000] } =
      .next t := ⟨_, rfl⟩

/-- `PointsLieOnCurves` for one point register, evaluated for every modulus. -/
def curvePointCheck (s : State) : Option PointRec → Bool
  | some ⟨c, .finite x y⟩ =>
    match curveOf s c with
    | some cv => x.toNat < cv.p && y.toNat < cv.p && onCurve x.toNat y.toNat cv
    | none => true
  | some ⟨_, .infinity⟩ => true
  | none => true

theorem onCurves_of_check {s : State} (h : ∀ j : PIdx, curvePointCheck s s.P[j] = true) : PointsLieOnCurves s := by
  intro j r cv hr hc _
  have hj := h j
  rw [hr] at hj
  obtain ⟨c, pt⟩ := r
  cases pt with
  | infinity => trivial
  | finite x y =>
    simp only [curvePointCheck, hc, Bool.and_eq_true, onCurve, decide_eq_true_eq] at hj
    exact ⟨hj.1.1, hj.1.2, hj.2⟩

theorem wit_StepKeepsPointsOnCurves : tBusy.Inv ∧ PointsLieOnCurves tBusy ∧ ∃ t, step tBusy = .next t :=
  ⟨tBusy_inv, onCurves_of_check (by decide +kernel), _, rfl⟩

theorem wit_StepKeepsPointsOnCurves_padd : (busyWith 0x25302000 tB).Inv ∧ PointsLieOnCurves (busyWith 0x25302000 tB) ∧
    ∃ t, step (busyWith 0x25302000 tB) = .next t :=
  ⟨by apply inv_of_checks <;> decide +kernel, onCurves_of_check (by decide +kernel), _, rfl⟩

/-! Configuration and constants. -/

theorem wit_MsetSetsModulus : 2 ≤ { t13 with dinl := 2 }.dinl.toNat ∧ t13.F[(0 : FIdx)] = f0 7 ∧
    t13.F[(7 : FIdx)] = none ∧ tA.P[(0 : PIdx)] = p0 2 5 ∧ t13.P[(0 : PIdx)] = none := by decide

theorem wit_MsetSetsModulus_error : { t13 with dinl := 1 }.dinl.toNat < 2 := by decide

theorem wit_CsetSetsCurve : tA.F[(0 : FIdx)] = f0 5 ∧ tA.F[(1 : FIdx)] = f0 7 ∧ tA.pmod = some 223 ∧
    primeOf tA .prog = some (223 : Value).toNat ∧ tA.P[(0 : PIdx)] = p0 2 5 ∧
    { tA with P := State.reset.P }.P[(0 : PIdx)] = none := by decide

theorem wit_CsetSetsCurve_absent : tA.F[(6 : FIdx)] = none ∧ State.reset.pmod = none := by decide

theorem wit_CsetSetsCurve_mismatch : tA.F[(0 : FIdx)] = f0 5 ∧ tA.F[(4 : FIdx)] = f1 5 ∧ tA.pmod = some 223 ∧
    primeOf tA .secp ≠ some (223 : Value).toNat := by decide

/-! Field commands. -/

theorem wit_FconsConstructs : primeOf t13 .prog = some 13 ∧ t13.dinl.toNat < 13 := by decide

theorem wit_FconsConstructs_absent : State.reset.pmod = none := by decide

theorem wit_FconsConstructs_range : primeOf t13 .prog = some 13 ∧ 13 ≤ { t13 with dinl := 13 }.dinl.toNat := by decide

theorem wit_FgetReadsTheNumber : t13.F[(0 : FIdx)] = f0 7 ∧ t13.F[(7 : FIdx)] = none := by decide

theorem wit_binaryFieldRule : t13.F[(0 : FIdx)] = f0 7 ∧ t13.F[(1 : FIdx)] = f0 12 ∧ primeOf t13 .prog = some 13 ∧
    2 ≤ 13 ∧ t13.F[(7 : FIdx)] = none := by decide

theorem wit_binaryFieldRule_mismatch : t13.F[(0 : FIdx)] = f0 7 ∧ t13.F[(2 : FIdx)] = f1 7 ∧
    primeOf t13 .prog = some 13 ∧ primeOf t13 .secp = some pSecp ∧ 13 ≠ pSecp := by decide

theorem wit_FaddWritesTheSum : t13.F[(0 : FIdx)] = f0 7 ∧ t13.F[(1 : FIdx)] = f0 12 ∧ primeOf t13 .prog = some 13 :=
  ⟨wit_binaryFieldRule.1, wit_binaryFieldRule.2.1, wit_binaryFieldRule.2.2.1⟩

theorem wit_FsubWritesTheDifference : t13.F[(1 : FIdx)] = f0 12 ∧ t13.F[(0 : FIdx)] = f0 7 ∧
    primeOf t13 .prog = some 13 := ⟨wit_binaryFieldRule.2.1, wit_binaryFieldRule.1, wit_binaryFieldRule.2.2.1⟩

theorem wit_FmulWritesTheProduct : t13.F[(2 : FIdx)] = f1 7 ∧ primeOf t13 .secp = some pSecp ∧ 2 ≤ pSecp := by decide

theorem wit_FpowWritesThePower : t13.F[(3 : FIdx)] = f0 0 ∧ primeOf t13 .prog = some 13 ∧ 2 ≤ 13 ∧
    t13.F[(7 : FIdx)] = none := by decide

theorem wit_FpowWritesThePower_two : primeOf t2 .prog = some 2 ∧ 2 ≤ 2 := by decide

theorem wit_FinvWritesTheFermatPower : t13.F[(0 : FIdx)] = f0 7 ∧ primeOf t13 .prog = some 13 ∧ 2 ≤ 13 ∧
    (7 : Value) ≠ 0 ∧ t13.F[(7 : FIdx)] = none := by decide

theorem wit_FinvWritesTheFermatPower_zero : t13.F[(3 : FIdx)] = f0 0 ∧ primeOf t13 .prog = some 13 := by decide

theorem wit_FdivWritesTheQuotient : t13.F[(0 : FIdx)] = f0 7 ∧ t13.F[(1 : FIdx)] = f0 12 ∧
    primeOf t13 .prog = some 13 ∧ 2 ≤ 13 ∧ (12 : Value) ≠ 0 ∧ t13.F[(7 : FIdx)] = none := by decide

theorem wit_FdivWritesTheQuotient_mismatch : t13.F[(0 : FIdx)] = f0 7 ∧ t13.F[(2 : FIdx)] = f1 7 ∧
    primeOf t13 .prog = some 13 ∧ primeOf t13 .secp = some pSecp ∧ 13 ≠ pSecp := by decide

theorem wit_FdivWritesTheQuotient_zero : t13.F[(0 : FIdx)] = f0 7 ∧ t13.F[(3 : FIdx)] = f0 0 ∧
    primeOf t13 .prog = some 13 := by decide

theorem wit_FeqComparesNumberAndPrime : t13.F[(0 : FIdx)] = f0 7 ∧ t13.F[(2 : FIdx)] = f1 7 ∧
    t13.F[(7 : FIdx)] = none := by decide

theorem wit_InverseLaws : t13.F[(0 : FIdx)] = f0 7 ∧ t13.F[(1 : FIdx)] = f0 12 ∧ primeOf t13 .prog = some 13 ∧
    (13 : Nat).Prime ∧ (7 : Value).toNat < 13 ∧ (12 : Value).toNat < 13 ∧ (12 : Value) ≠ 0 :=
  ⟨by decide, by decide, by decide, by norm_num, by decide, by decide, by decide⟩

/-! Point commands. -/

theorem wit_PconsValidates : tA.F[(2 : FIdx)] = f0 2 ∧ tA.F[(3 : FIdx)] = f0 5 ∧
    curveOf tA .prog = some { a := 5, b := 7, p := 223 } ∧ primeOf tA .prog = some 223 ∧
    5 * 5 % 223 = (2 * 2 * 2 + 5 * 2 + 7) % 223 ∧ tA.F[(6 : FIdx)] = none := by decide

theorem wit_PconsValidates_off : tA.F[(2 : FIdx)] = f0 2 ∧ tA.F[(7 : FIdx)] = f0 4 ∧
    4 * 4 % 223 ≠ (2 * 2 * 2 + 5 * 2 + 7) % 223 := by decide

theorem wit_PconsValidates_mismatch : tA.F[(2 : FIdx)] = f0 2 ∧ tA.F[(4 : FIdx)] = f1 5 ∧
    primeOf tA .secp = some pSecp ∧ 223 ≠ pSecp := by decide

theorem wit_PconsValidates_absent : t13.F[(0 : FIdx)] = f0 7 ∧ t13.F[(1 : FIdx)] = f0 12 ∧ t13.curve0 = none := by
  decide

theorem wit_PinfConstructs : tA.curve0.isSome = true ∧ t13.curve0 = none := by decide

theorem wit_CoordinatesAreRead : tA.P[(0 : PIdx)] = some { c := .prog, pt := .finite 2 5 } ∧ tB.P[(3 : PIdx)] = none ∧
    tA.P[(2 : PIdx)] = some { c := .prog, pt := .infinity } := by decide

theorem wit_PtestTestsForInfinity : tA.P[(2 : PIdx)] = inf0 ∧ tB.P[(3 : PIdx)] = none := by decide

theorem wit_PeqComparesPoints : tA.P[(0 : PIdx)] = p0 2 5 ∧ tA.P[(3 : PIdx)] = gen ∧ tB.P[(3 : PIdx)] = none := by
  decide

theorem wit_PaddFollowsSixCases_mismatch : tA.P[(0 : PIdx)] = p0 2 5 ∧ tA.P[(3 : PIdx)] = gen ∧
    curveOf tA .prog ≠ curveOf tA .secp ∧ tB.P[(3 : PIdx)] = none := by decide

theorem wit_PaddFollowsSixCases_identity : tA.P[(2 : PIdx)] = inf0 ∧ tA.P[(0 : PIdx)] = p0 2 5 ∧
    curveOf tA .prog = some { a := 5, b := 7, p := 223 } ∧ 2 ≤ 223 ∧ (Coords.finite 2 5) ≠ .infinity := by decide

theorem wit_PaddFollowsSixCases_vertical : tB.P[(0 : PIdx)] = p0 47 71 ∧ tB.P[(1 : PIdx)] = p0 47 152 ∧
    curveOf tB .prog = some { a := 0, b := 7, p := 223 } ∧ (71 : Value) ≠ 152 := by decide

theorem wit_PaddFollowsSixCases_chord : tB.P[(0 : PIdx)] = p0 47 71 ∧ tB.P[(2 : PIdx)] = p0 17 56 ∧
    (47 : Value) ≠ 17 ∧ (47 : Value).toNat < 223 ∧ (17 : Value).toNat < 223 := by decide

theorem wit_PaddFollowsSixCases_order_two : t2.P[(1 : PIdx)] = p0 1 0 ∧
    curveOf t2 .prog = some { a := 0, b := 1, p := 2 } ∧ 2 ≤ 2 := by decide

theorem wit_PaddFollowsSixCases_no_tangent : t2.P[(0 : PIdx)] = p0 0 1 ∧ (1 : Value) ≠ 0 ∧
    2 * (1 : Value).toNat % 2 = 0 := by decide

theorem wit_PaddFollowsSixCases_tangent : tA.P[(0 : PIdx)] = p0 2 5 ∧ (5 : Value) ≠ 0 ∧
    2 * (5 : Value).toNat % 223 ≠ 0 := by decide

theorem wit_PdblDoubles : tA.P[(0 : PIdx)] = p0 2 5 ∧ curveOf tA .prog = some { a := 5, b := 7, p := 223 } ∧ 2 ≤ 223 ∧
    (5 : Value) ≠ 0 ∧ 2 * (5 : Value).toNat % 223 ≠ 0 ∧ tA.P[(2 : PIdx)] = inf0 ∧ tB.P[(3 : PIdx)] = none := by decide

theorem wit_PdblDoubles_order_two : t2.P[(1 : PIdx)] = p0 1 0 ∧ t2.P[(0 : PIdx)] = p0 0 1 ∧
    curveOf t2 .prog = some { a := 0, b := 1, p := 2 } ∧ 2 * (1 : Value).toNat % 2 = 0 := by decide

theorem wit_PmulRunsTheLoop : tB.P[(0 : PIdx)] = p0 47 71 ∧ tB.P[(3 : PIdx)] = none ∧
    ∃ R, smulWhile { tB with K := 0 } (scalarOf { tB with K := 0 } { c := .prog, pt := .finite 47 71 })
      { c := .prog, pt := .infinity } { c := .prog, pt := .finite 47 71 } = .ok R :=
  ⟨by decide, by decide, _, by unfold smulWhile; rfl⟩

theorem wit_PmulRunsTheLoop_error : t2.P[(0 : PIdx)] = p0 0 1 ∧
    smulWhile t2 (scalarOf t2 { c := .prog, pt := .finite 0 1 }) { c := .prog, pt := .infinity }
      { c := .prog, pt := .finite 0 1 } = .error .divisionByZero := by
  refine ⟨by decide, ?_⟩
  unfold smulWhile
  decide +kernel

theorem wit_PmulCompletesForOddModulus : tB.Inv ∧ tB.P[(0 : PIdx)] = p0 47 71 ∧
    curveOf tB .prog = some { a := 0, b := 7, p := 223 } ∧ 223 % 2 = 1 := ⟨tB_inv, by decide⟩

theorem wit_PmulCompletesForOddModulus_secp : tA.Inv ∧ tA.P[(3 : PIdx)] = gen ∧
    curveOf tA .secp = some curveSecp ∧ curveSecp.p % 2 = 1 := ⟨tA_inv, by decide⟩

theorem wit_PmulCompletesForOddModulus_even : t2.Inv ∧ t2.P[(0 : PIdx)] = p0 0 1 ∧
    curveOf t2 .prog = some { a := 0, b := 1, p := 2 } := ⟨t2_inv, by decide⟩

theorem wit_PmulByTwoIsPdbl : tB.Inv ∧ tB.P[(0 : PIdx)] = p0 47 71 ∧
    curveOf tB .prog = some { a := 0, b := 7, p := 223 } ∧ 223 % 2 = 1 ∧ tB.K = 2 := ⟨tB_inv, by decide⟩

theorem wit_PaddStaysOnTheCurve : tB.P[(0 : PIdx)] = p0 47 71 ∧ tB.P[(2 : PIdx)] = p0 17 56 ∧
    curveOf tB .prog = some { a := 0, b := 7, p := 223 } ∧ (223 : Nat).Prime ∧
    OnCurve { a := 0, b := 7, p := 223 } (.finite 47 71) ∧ OnCurve { a := 0, b := 7, p := 223 } (.finite 17 56) :=
  ⟨by decide, by decide, by decide, by norm_num, by unfold OnCurve; decide, by unfold OnCurve; decide⟩

theorem wit_PaddCommutes : tB.P[(0 : PIdx)] = p0 47 71 ∧ tB.P[(2 : PIdx)] = p0 17 56 ∧
    curveOf tB .prog = some { a := 0, b := 7, p := 223 } ∧ (223 : Nat).Prime ∧
    OnCurve { a := 0, b := 7, p := 223 } (.finite 47 71) ∧ OnCurve { a := 0, b := 7, p := 223 } (.finite 17 56) :=
  wit_PaddStaysOnTheCurve

theorem wit_PaddIdentityAndInverse : tA.P[(0 : PIdx)] = p0 2 5 ∧ tA.P[(2 : PIdx)] = inf0 ∧
    curveOf tA .prog = some { a := 5, b := 7, p := 223 } ∧ OnCurve { a := 5, b := 7, p := 223 } (.finite 2 5) :=
  ⟨by decide, by decide, by decide, by unfold OnCurve; decide⟩

theorem wit_PaddIdentityAndInverse_inverse : tB.P[(0 : PIdx)] = p0 47 71 ∧ tB.P[(1 : PIdx)] = p0 47 152 ∧
    curveOf tB .prog = some { a := 0, b := 7, p := 223 } ∧ OnCurve { a := 0, b := 7, p := 223 } (.finite 47 71) ∧
    (152 : Value).toNat < 223 ∧ ((71 : Value).toNat + (152 : Value).toNat) % 223 = 0 ∧ 2 * (71 : Value).toNat ≠ 223 :=
  ⟨by decide, by decide, by decide, by unfold OnCurve; decide, by decide, by decide, by decide⟩

theorem wit_PaddAssociates : curveOf tB .prog = some { a := 0, b := 7, p := 223 } ∧ (223 : Nat).Prime ∧ 223 % 2 = 1 ∧
    (4 * 0 ^ 3 + 27 * 7 ^ 2) % 223 ≠ 0 ∧ OnCurve { a := 0, b := 7, p := 223 } (.finite 47 71) ∧
    OnCurve { a := 0, b := 7, p := 223 } (.finite 17 56) ∧ OnCurve { a := 0, b := 7, p := 223 } .infinity :=
  ⟨by decide, by norm_num, by decide, by decide, by unfold OnCurve; decide, by unfold OnCurve; decide, trivial⟩

end Sys2Proof.Tests
end

section
/-! # The state family: what a step keeps

SUPPORT. Each register after each update, the invariants of R35 under each update, and from these the statements about
what every command, host access and reset leaves unchanged. -/

namespace Sys2Proof.Machine

/-! ### Reading a register back -/

theorem getElem_writeF (s : State) (d i : FIdx) (m : Slot) (n : Nat) :
    (s.writeF d m n).F[i] = if d = i then some { m, num := BitVec.ofNat 256 n } else s.F[i] := by
  simp [Vector.getElem_set, Fin.ext_iff]

theorem getElem_writeP (s : State) (d j : PIdx) (r : PointRec) :
    (s.writeP d r).P[j] = if d = j then some r else s.P[j] := by
  simp [Vector.getElem_set, Fin.ext_iff]

theorem getElem_keepSecpF (s : State) (i : FIdx) : (s.F.map keepSecpF)[i] = keepSecpF s.F[i] := by simp

theorem getElem_keepSecpP (s : State) (j : PIdx) : (s.P.map keepSecpP)[j] = keepSecpP s.P[j] := by simp

/-- What survives `MSET` in a field register is of slot 1 (R122). -/
theorem keepSecpF_eq_some {o : Option FieldRec} {r : FieldRec} :
    keepSecpF o = some r ↔ o = some r ∧ r.m = .secp := by
  cases o with
  | none => simp [keepSecpF]
  | some r' => cases hm : r'.m <;> grind [keepSecpF]

/-- What survives `MSET` or `CSET` in a point register is of slot 1 (R122, R123). -/
theorem keepSecpP_eq_some {o : Option PointRec} {r : PointRec} :
    keepSecpP o = some r ↔ o = some r ∧ r.c = .secp := by
  cases o with
  | none => simp [keepSecpP]
  | some r' => cases hc : r'.c <;> grind [keepSecpP]

theorem keepSecpF_eq_or_none (o : Option FieldRec) : keepSecpF o = o ∨ keepSecpF o = none := by
  cases h : keepSecpF o with
  | none => exact .inr rfl
  | some r => exact .inl (keepSecpF_eq_some.1 h).1.symm

theorem keepSecpP_eq_or_none (o : Option PointRec) : keepSecpP o = o ∨ keepSecpP o = none := by
  cases h : keepSecpP o with
  | none => exact .inr rfl
  | some r => exact .inl (keepSecpP_eq_some.1 h).1.symm

/-- The slot lookup depends on `PMOD` and `CURVE0` only (R34). -/
theorem curveOf_congr {s t : State} (hpmod : t.pmod = s.pmod) (hcurve : t.curve0 = s.curve0) (c : Slot) :
    curveOf t c = curveOf s c := by
  cases c with
  | prog => simp only [curveOf, hpmod, hcurve]
  | secp => rfl

/-- `prime_of` depends on `PMOD` only (R34). -/
theorem primeOf_congr {s t : State} (hpmod : t.pmod = s.pmod) (m : Slot) : primeOf t m = primeOf s m := by
  cases m with
  | prog => simp only [primeOf, hpmod]
  | secp => rfl

theorem belowPrime_congr {s t : State} (hpmod : t.pmod = s.pmod) (m : Slot) (v : Value) :
    belowPrime t m v ↔ belowPrime s m v := by
  simp only [belowPrime, primeOf_congr hpmod]

/-- The codes of R260. -/
theorem ErrorKind.code_range (e : ErrorKind) : 1 ≤ e.code.toNat ∧ e.code.toNat ≤ 8 := by
  cases e <;> decide

/-! ### The invariants of R35 under each update -/

/-- The clauses of the invariants that speak of the status bits (R35 (g), (h), R260). -/
def State.StatusInv (s : State) : Prop :=
  (s.busy = true → s.err = false ∧ s.done = false) ∧
  (s.err = false → s.errCode = 0 ∧ s.errCmd = 0) ∧
  (s.err = true → 1 ≤ s.errCode.toNat ∧ s.errCode.toNat ≤ 8)

namespace State.Inv

variable {s t : State}

theorem status (h : s.Inv) : s.StatusInv := ⟨h.busyIsClean, h.noErrorNoRecord, h.errorHasCode⟩

/-- A state with the registers of a state that meets the invariants needs only the clauses on the status bits. -/
theorem of_registers (h : s.Inv) (hF : t.F = s.F) (hP : t.P = s.P) (hpmod : t.pmod = s.pmod)
    (hcurve : t.curve0 = s.curve0) (hstatus : t.StatusInv) : t.Inv := by
  obtain ⟨busyIsClean, noErrorNoRecord, errorHasCode⟩ := hstatus
  have below : ∀ {m : Slot} {v : Value}, belowPrime s m v → belowPrime t m v := (belowPrime_congr hpmod _ _).2
  exact {
    fieldsInRange := fun i r hr => below (h.fieldsInRange i r (hF ▸ hr))
    curveInRange := fun c hc => (h.curveInRange c (hcurve ▸ hc)).imp below below
    pointsHaveCurve := fun j r hr hc => hcurve ▸ h.pointsHaveCurve j r (hP ▸ hr) hc
    pointsInRange := fun j r x y hr hpt => (h.pointsInRange j r x y (hP ▸ hr) hpt).imp below below
    modulusAtLeastTwo := fun v hv => h.modulusAtLeastTwo v (hpmod ▸ hv)
    busyIsClean, noErrorNoRecord, errorHasCode }

theorem world (h : s.Inv) (evs : List Event) (log : List Word) :
    State.Inv { s with events := evs, readLog := log } :=
  h.of_registers rfl rfl rfl rfl h.status

theorem writeF (h : s.Inv) (d : FIdx) {m : Slot} {n : Nat} (hn : ∃ p, primeOf s m = some p ∧ n < p) :
    (s.writeF d m n).Inv :=
  { h with
    fieldsInRange := fun i r hr => by
      rw [getElem_writeF] at hr
      split at hr
      next =>
        obtain ⟨p, hp, hlt⟩ := hn
        cases hr
        exact ⟨p, hp, by rw [toNat_ofNat_of_lt hlt (primeOf_lt hp).le]; exact hlt⟩
      next => exact h.fieldsInRange i r hr }

theorem writeP (h : s.Inv) (d : PIdx) {r : PointRec}
    (hr : (r.c = .prog → s.curve0.isSome) ∧ ∃ p, primeOf s r.c = some p ∧ r.pt.Below p) : (s.writeP d r).Inv := by
  obtain ⟨hcurve, p, hp, hbelow⟩ := hr
  exact { h with
    pointsHaveCurve := fun j r' hr' hc => by
      rw [getElem_writeP] at hr'
      split at hr'
      next => cases hr'; exact hcurve hc
      next => exact h.pointsHaveCurve j r' hr' hc
    pointsInRange := fun j r' x y hr' hpt => by
      rw [getElem_writeP] at hr'
      split at hr'
      next =>
        cases hr'
        rw [hpt] at hbelow
        exact ⟨⟨p, hp, hbelow.1⟩, ⟨p, hp, hbelow.2⟩⟩
      next => exact h.pointsInRange j r' x y hr' hpt }

/-- `MSET` keeps the invariants: what it leaves valid is of slot 1, whose prime it does not change (R122). -/
theorem setModulus (h : s.Inv) {v : Value} (hv : 2 ≤ v.toNat) : (s.setModulus v).Inv :=
  { h with
    fieldsInRange := fun i r hr => by
      rw [State.setModulus_F, getElem_keepSecpF, keepSecpF_eq_some] at hr
      have hb := h.fieldsInRange i r hr.1
      rw [hr.2] at hb ⊢
      exact hb
    curveInRange := fun c hc => by simp at hc
    pointsHaveCurve := fun j r hr hc => by
      rw [State.setModulus_P, getElem_keepSecpP, keepSecpP_eq_some, hc] at hr
      simp at hr
    pointsInRange := fun j r x y hr hpt => by
      rw [State.setModulus_P, getElem_keepSecpP, keepSecpP_eq_some] at hr
      have hb := h.pointsInRange j r x y hr.1 hpt
      rw [hr.2] at hb ⊢
      exact hb
    modulusAtLeastTwo := fun v' hv' => by
      rw [State.setModulus_pmod] at hv'
      cases hv'
      exact hv }

/-- `CSET` keeps the invariants: the new coefficients are in range, and the points it leaves valid are of slot 1
(R123). -/
theorem setCurve (h : s.Inv) {a b : Value} (hab : belowPrime s .prog a ∧ belowPrime s .prog b) :
    (s.setCurve a b).Inv :=
  { h with
    curveInRange := fun c hc => by
      rw [State.setCurve_curve0] at hc
      cases hc
      exact hab
    pointsHaveCurve := fun _ _ _ _ => by simp
    pointsInRange := fun j r x y hr hpt => by
      rw [State.setCurve_P, getElem_keepSecpP, keepSecpP_eq_some] at hr
      exact h.pointsInRange j r x y hr.1 hpt }

theorem completed (h : s.Inv) : s.completed.Inv :=
  h.of_registers rfl rfl rfl rfl ⟨by simp, h.noErrorNoRecord, h.errorHasCode⟩

theorem raise (h : s.Inv) (e : ErrorKind) : (s.raise e).Inv :=
  h.of_registers rfl rfl rfl rfl ⟨by simp, by simp, fun _ => e.code_range⟩

end State.Inv

theorem Commits.inv {i : Instr} {s u : State} (hc : Commits i s u) (h : s.Inv) : u.Inv := by
  cases hc with
  | nothing => exact h
  | modulus _ hv => exact h.setModulus hv
  | curve _ _ _ _ _ hab => exact h.setCurve (hab h)
  | field _ d _ _ _ _ hn => exact h.writeF d (hn h)
  | point _ d _ _ _ hr => exact h.writeP d (hr h)
  | scalar | out | equalF | equalP | infinite => exact h.of_registers rfl rfl rfl rfl h.status

theorem exec_inv {i : Instr} {s t : State} (h : s.Inv) (he : exec i s = .next t) : t.Inv := by
  obtain ⟨e, -, rfl⟩ | ⟨u, hu, rfl⟩ := exec_cases he
  · exact h.raise e
  · exact (hu.inv h).completed

theorem complete_inv {s t : State} (h : s.Inv) (hc : complete s = .next t) : t.Inv := by
  obtain ⟨-, rfl⟩ | ⟨-, -, rfl⟩ | ⟨-, i, -, he⟩ := complete_cases hc
  · exact h
  · exact h.raise _
  · exact exec_inv h he

/-- Reset makes every register invalid, so the invariants on registers say nothing (R38). -/
theorem reset_inv : State.reset.Inv where
  fieldsInRange i r hr := by simp [State.reset] at hr
  curveInRange c hc := by simp [State.reset] at hc
  pointsHaveCurve j r hr := by simp [State.reset] at hr
  pointsInRange j r x y hr := by simp [State.reset] at hr
  modulusAtLeastTwo v hv := by simp [State.reset] at hv
  busyIsClean hb := by simp [State.reset] at hb
  noErrorNoRecord _ := ⟨rfl, rfl⟩
  errorHasCode he := by simp [State.reset] at he

theorem resetCore_inv (s : State) : s.resetCore.Inv := reset_inv.world s.events s.readLog

/-- A write to `CMD` is accepted only when the core is not in error, so that the core it makes busy is clean (R67,
R68). -/
theorem writeCmd_inv {s : State} (h : s.Inv) (w : Word) : (writeCmd s w).Inv := by
  unfold writeCmd
  split
  next => exact h.of_registers rfl rfl rfl rfl h.status
  next hfree =>
    have herr : s.err = false := by simp at hfree; exact hfree.2
    exact h.of_registers rfl rfl rfl rfl ⟨fun _ => ⟨herr, rfl⟩, h.noErrorNoRecord, h.errorHasCode⟩

/-- `ERRCLR` clears the error together with its record (R69, R265). -/
theorem writeCtrl_inv {s : State} (h : s.Inv) (d : Word) : (writeCtrl s d).Inv := by
  cases h31 : d.getLsbD 31 with
  | true =>
    rw [writeCtrl, if_pos h31]
    exact resetCore_inv s
  | false =>
    rw [writeCtrl_eq s d h31]
    refine h.of_registers rfl rfl rfl rfl ⟨fun hb => ?_, fun he => ?_, fun he => ?_⟩
    · obtain ⟨herr, hdone⟩ := h.busyIsClean hb
      simp [herr, hdone]
    · cases h8 : d.getLsbD 8 with
      | true => exact ⟨rfl, rfl⟩
      | false => exact h.noErrorNoRecord (by simpa only [h8, Bool.false_eq_true, if_false] using he)
    · cases h8 : d.getLsbD 8 with
      | true => simp only [h8, if_true, Bool.false_eq_true] at he
      | false => exact h.errorHasCode (by simpa only [h8, Bool.false_eq_true, if_false] using he)

theorem writePort_inv {s : State} (h : s.Inv) (w : PortWord) (d : Word) : (writePort s w d).Inv := by
  cases w with
  | cmd => exact writeCmd_inv h d
  | ctrl => exact writeCtrl_inv h d
  | dinl i | dinh i | k i => simp only [writePort]; split <;> exact h.of_registers rfl rfl rfl rfl h.status
  | status | errcmd | dout _ | reserved => exact h

/-! ### From one step to a run -/

/-- A property of the core's registers that the core's turn, a host write and a reset keep is kept by every step. -/
theorem step_keeps {Q : State → Prop}
    (world : ∀ s evs log, Q s → Q { s with events := evs, readLog := log })
    (core : ∀ s t, Q s → complete s = .next t → Q t)
    (write : ∀ s w d, Q s → Q (writePort s w d))
    (reset : ∀ s, Q s → Q s.resetCore)
    {s t : State} (hs : Q s) (h : step s = .next t) : Q t := by
  obtain ⟨-, hc⟩ | ⟨rest, -, hc⟩ | ⟨a, w, rest, -, rfl⟩ | ⟨a, d, w, rest, -, -, rfl⟩ | ⟨rest, -, rfl⟩ := step_cases h
  · exact core _ _ hs hc
  · exact core _ _ (world s rest s.readLog hs) hc
  · exact world s rest _ hs
  · exact write _ w d (world s rest s.readLog hs)
  · exact reset _ (world s rest s.readLog hs)

/-- A property that every step keeps is kept by a run of any number of steps. -/
theorem run_keeps {Q : State → Prop} (hstep : ∀ s t, Q s → step s = .next t → Q t) :
    ∀ (n : Nat) (s t : State), Q s → Host.Core.run core n s = .next t → Q t
  | 0, s, t, hs, h => by cases h; exact hs
  | n + 1, s, t, hs, h => by
    cases hst : step s with
    | next u =>
      have hrun : Host.Core.run core n u = .next t := by
        have hcore : core.step s = .next u := hst
        simpa only [Host.Core.run, hcore] using h
      exact run_keeps hstep n u t (hstep s u hs hst) hrun
    | fault r => cases r
    | refused r =>
      have hcore : core.step s = .refused r := hst
      simp only [Host.Core.run, hcore] at h
      cases h

/-- Settles O25. -/
theorem resetMeetsInvariants : Obligations.ResetMeetsInvariants := reset_inv

/-- Settles O26: every kind of step keeps the invariants. -/
theorem stepKeepsInvariants : Obligations.StepKeepsInvariants := fun _ _ hs h =>
  step_keeps (fun _ evs log h => h.world evs log) (fun _ _ => complete_inv) (fun _ w d h => writePort_inv h w d)
    (fun s _ => resetCore_inv s) hs h

/-- Settles O27, by induction on the number of steps from O25 and O26. -/
theorem everyRunMeetsInvariants : Obligations.EveryRunMeetsInvariants := fun evs n t h =>
  run_keeps stepKeepsInvariants n _ t (reset_inv.world evs []) h

end Sys2Proof.Machine
end

section
/-! # Valid points stay on their curves

SUPPORT. The group law of R182 on a curve over a prime modulus, read in the field of numbers modulo it, and the
invariant of R191 from it. -/

namespace Sys2Proof.Machine

open Sys2Proof.Spec

/-! ### The line through two points meets the curve again -/

section Line

variable {K : Type} [Field K] {a b x₁ y₁ x₂ y₂ sl x₃ y₃ : K}

/-- The chord: the cubic and the line agree at `x₁` and `x₂`, so their difference is `(x - x₁)(x - x₂)(x - x₃)`. -/
theorem chord_meets_curve (h₁ : y₁ * y₁ = x₁ * x₁ * x₁ + a * x₁ + b) (h₂ : y₂ * y₂ = x₂ * x₂ * x₂ + a * x₂ + b)
    (hx : x₂ - x₁ ≠ 0) (hsl : sl * (x₂ - x₁) = y₂ - y₁) (hx₃ : x₃ = sl * sl - x₁ - x₂)
    (hy₃ : y₃ = sl * (x₁ - x₃) - y₁) : y₃ * y₃ = x₃ * x₃ * x₃ + a * x₃ + b := by
  have hy₂ : y₂ = sl * (x₂ - x₁) + y₁ := by rw [hsl]; ring
  have hsum : sl * sl = x₃ + x₁ + x₂ := by rw [hx₃]; ring
  subst hy₃ hy₂
  apply mul_right_cancel₀ hx
  linear_combination (x₂ - x₃) * h₁ + (x₃ - x₁) * h₂ - (x₁ - x₂) * (x₁ - x₃) * (x₂ - x₃) * hsum

/-- The tangent: the difference of the cubic and the line has a double root at `x₁`. -/
theorem tangent_meets_curve (h₁ : y₁ * y₁ = x₁ * x₁ * x₁ + a * x₁ + b) (hsl : sl * (2 * y₁) = 3 * x₁ * x₁ + a)
    (hx₃ : x₃ = sl * sl - x₁ - x₁) (hy₃ : y₃ = sl * (x₁ - x₃) - y₁) :
    y₃ * y₃ = x₃ * x₃ * x₃ + a * x₃ + b := by
  have hsum : sl * sl = x₃ + x₁ + x₁ := by rw [hx₃]; ring
  subst hy₃
  linear_combination h₁ + (x₃ - x₁) * hsl + (x₁ - x₃) ^ 2 * hsum

end Line

/-! ### The integer functions in the field of numbers modulo the prime -/

/-- A number that is the remainder of an integer is that integer modulo `p` (R8). -/
theorem natCast_of_eq_emod {n p : Nat} {z : Int} (h : (n : Int) = z % (p : Int)) : (n : ZMod p) = z := by
  have := congrArg (Int.cast : Int → ZMod p) h
  rwa [Int.cast_natCast, ZMod.intCast_mod] at this

theorem fsub_cast (a b : Nat) {p : Nat} (hp : 0 < p) : (fsub a b p : ZMod p) = a - b := by
  rw [fsub, natCast_of_eq_emod (modInt_cast _ p hp)]
  push_cast
  rfl

/-- The quotient of `fdiv` by the Fermat power (R140) is the quotient, for a prime modulus. -/
theorem fdiv_cast_mul (a : Nat) {b p : Nat} (hp : p.Prime) (hb : (b : ZMod p) ≠ 0) :
    (fdiv a b p : ZMod p) * b = a := by
  have := Fact.mk hp
  have hexp : p - 1 = p - 2 + 1 := by have := hp.two_le; omega
  have hinv : (b : ZMod p) ^ (p - 2) * b = 1 := by rw [← pow_succ, ← hexp, ZMod.pow_card_sub_one_eq_one hb]
  rw [fdiv_eq _ _ _ hp.pos, ZMod.natCast_mod]
  push_cast
  rw [mul_assoc, hinv, mul_one]

/-- The equation of R180 is the one over the numbers modulo the modulus. -/
theorem curve_equation_iff (cv : Curve) (x y : Nat) :
    y * y % cv.p = (x * x * x + cv.a * x + cv.b) % cv.p ↔
      (y : ZMod cv.p) * y = x * x * x + cv.a * x + cv.b := by
  rw [← ZMod.natCast_eq_natCast_iff']
  push_cast
  rfl

/-- Numbers below the modulus are equal modulo it only when they are equal. -/
theorem sub_cast_ne_zero {m n p : Nat} (hm : m < p) (hn : n < p) (h : m ≠ n) : ((n : ZMod p) - m) ≠ 0 := by
  rw [sub_ne_zero, Ne, ZMod.natCast_eq_natCast_iff', Nat.mod_eq_of_lt hm, Nat.mod_eq_of_lt hn]
  exact h.symm

/-! ### The group law stays on the curve -/

/-- The third point is on the curve when every solution of its two equations is (R182). -/
theorem onCurve_thirdPoint {cv : Curve} {sl x₁ y₁ x₂ : Nat} (hp : 0 < cv.p) (hw : cv.p ≤ 2 ^ 256)
    (h : ∀ x₃ y₃ : ZMod cv.p, x₃ = sl * sl - x₁ - x₂ → y₃ = sl * (x₁ - x₃) - y₁ →
      y₃ * y₃ = x₃ * x₃ * x₃ + cv.a * x₃ + cv.b) :
    OnCurve cv (thirdPoint sl x₁ y₁ x₂ cv.p) := by
  obtain ⟨x₃, y₃, he, hx, hy, hx₃, hy₃⟩ := thirdPoint_eq sl x₁ y₁ x₂ cv.p hp hw
  rw [he]
  refine ⟨hx, hy, (curve_equation_iff cv _ _).2 (h _ _ ?_ ?_)⟩
  · simpa using natCast_of_eq_emod hx₃
  · simpa using natCast_of_eq_emod hy₃

section PrimeModulus

variable {cv : Curve} (hp : cv.p.Prime) (hw : cv.p ≤ 2 ^ 256) {x₁ y₁ x₂ y₂ : Nat}
  (h₁ : y₁ * y₁ % cv.p = (x₁ * x₁ * x₁ + cv.a * x₁ + cv.b) % cv.p)

include hp hw h₁

theorem onCurve_chord (h₂ : y₂ * y₂ % cv.p = (x₂ * x₂ * x₂ + cv.a * x₂ + cv.b) % cv.p) (hx₁ : x₁ < cv.p)
    (hx₂ : x₂ < cv.p) (hx : x₁ ≠ x₂) : OnCurve cv (chord x₁ y₁ x₂ y₂ cv.p) := by
  have := Fact.mk hp
  have hdiff := sub_cast_ne_zero hx₁ hx₂ hx
  refine onCurve_thirdPoint hp.pos hw fun x₃ y₃ =>
    chord_meets_curve ((curve_equation_iff cv _ _).1 h₁) ((curve_equation_iff cv _ _).1 h₂) hdiff ?_
  rw [← fsub_cast x₂ x₁ hp.pos, ← fsub_cast y₂ y₁ hp.pos]
  exact fdiv_cast_mul _ hp (by rwa [fsub_cast _ _ hp.pos])

theorem onCurve_tangent {R : Coords} (h : tangent cv x₁ y₁ = .ok R) : OnCurve cv R := by
  have := Fact.mk hp
  unfold tangent at h
  split at h
  next => cases h
  next hy =>
    cases h
    refine onCurve_thirdPoint hp.pos hw fun x₃ y₃ =>
      tangent_meets_curve ((curve_equation_iff cv _ _).1 h₁) ?_
    have hne : ((2 * y₁ % cv.p : Nat) : ZMod cv.p) ≠ 0 := by
      rwa [ZMod.natCast_mod, Ne, ZMod.natCast_eq_zero_iff, Nat.dvd_iff_mod_eq_zero]
    have hmul := fdiv_cast_mul ((3 * x₁ * x₁ + cv.a) % cv.p) hp hne
    rw [ZMod.natCast_mod (2 * y₁), ZMod.natCast_mod (3 * x₁ * x₁ + cv.a)] at hmul
    exact_mod_cast hmul

/-- The finite cases of the group law stay on the curve (R182 cases 3 to 6). -/
theorem onCurve_addFinite (h₂ : y₂ * y₂ % cv.p = (x₂ * x₂ * x₂ + cv.a * x₂ + cv.b) % cv.p) (hx₁ : x₁ < cv.p)
    (hx₂ : x₂ < cv.p) {R : Coords} (h : addFinite cv x₁ y₁ x₂ y₂ = .ok R) : OnCurve cv R := by
  unfold addFinite at h
  split at h
  next => cases h; trivial
  next =>
    split at h
    next hx => cases h; exact onCurve_chord hp hw h₁ h₂ hx₁ hx₂ hx
    next =>
      split at h
      next => cases h; trivial
      next => exact onCurve_tangent hp hw h₁ h

end PrimeModulus

/-- `r` is a point of the curve `cv`: its slot holds this curve, on which it lies when the modulus is prime. -/
def PointOf (s : State) (cv : Curve) (r : PointRec) : Prop :=
  curveOf s r.c = some cv ∧ (cv.p.Prime → OnCurve cv r.pt)

/-- The group law gives a point of its operands' curve (R191). -/
theorem PointOf.padd {s : State} {cv : Curve} {A B R : PointRec} (hA : PointOf s cv A) (hB : PointOf s cv B)
    (h : padd s A B = .ok R) : PointOf s cv R := by
  obtain ⟨cA, onA⟩ := hA
  obtain ⟨cB, onB⟩ := hB
  rcases padd_same_curve cA cB with ⟨-, he⟩ | ⟨-, -, he⟩ | ⟨x₁, y₁, x₂, y₂, ptA, ptB, he⟩
  · rw [he] at h; cases h; exact ⟨cB, onB⟩
  · rw [he] at h; cases h; exact ⟨cA, onA⟩
  · rw [he] at h
    cases hadd : addFinite cv x₁.toNat y₁.toNat x₂.toNat y₂.toNat with
    | error e => rw [hadd] at h; cases h
    | ok pt =>
      rw [hadd] at h
      cases h
      refine ⟨cA, fun hp => ?_⟩
      rw [ptA] at onA
      rw [ptB] at onB
      obtain ⟨hx₁, -, h₁⟩ := onA hp
      obtain ⟨hx₂, -, h₂⟩ := onB hp
      exact onCurve_addFinite hp (curveOf_lt cA).le h₁ h₂ hx₁ hx₂ hadd

theorem PointOf.addIfSet {s : State} {cv : Curve} {k : Nat} {r c R : PointRec} (hr : PointOf s cv r)
    (hc : PointOf s cv c) (h : addIfSet s k r c = .ok R) : PointOf s cv R := by
  unfold Machine.addIfSet at h
  split at h
  next => exact hr.padd hc h
  next => cases h; exact hr

/-- The scalar loop gives a point of its operands' curve (R220). -/
theorem PointOf.smulLoop {s : State} {cv : Curve} :
    ∀ (n k : Nat) {r c R : PointRec}, PointOf s cv r → PointOf s cv c → smulLoop s n k r c = .ok R → PointOf s cv R
  | 0, _, _, _, _, hr, _, h => by cases h; exact hr
  | n + 1, k, _, _, _, hr, hc, h => by
    unfold Machine.smulLoop at h
    obtain ⟨r', hadd, h⟩ := bind_eq_ok h
    obtain ⟨c', hdbl, h⟩ := bind_eq_ok h
    exact PointOf.smulLoop n (k / 2) (hr.addIfSet hc hadd) (hc.padd hc hdbl) h

theorem pointOf_infinity {s : State} {c : Slot} {cv : Curve} (h : curveOf s c = some cv) :
    PointOf s cv { c := c, pt := .infinity } := ⟨h, fun _ => trivial⟩

/-! ### The invariant -/

/-- A point that lies on the curve of its slot, where that is defined and its modulus prime (R191). -/
def LiesOnCurve (s : State) (r : PointRec) : Prop := ∀ cv, curveOf s r.c = some cv → PointOf s cv r

theorem pointsLieOnCurves_iff {s : State} :
    PointsLieOnCurves s ↔ ∀ (j : PIdx) (r : PointRec), s.P[j] = some r → LiesOnCurve s r :=
  ⟨fun h j r hr cv hcv => ⟨hcv, h j r cv hr hcv⟩, fun h j r cv hr hcv => (h j r hr cv hcv).2⟩

theorem PointOf.liesOnCurve {s : State} {cv : Curve} {r : PointRec} (h : PointOf s cv r) : LiesOnCurve s r := by
  intro cv' hcv'
  rw [h.1] at hcv'
  cases hcv'
  exact h

/-- A pseudocode that, when it does not raise, writes `d` with a point on its curve and nothing else. -/
def WritesOnCurve (s : State) (d : PIdx) (r : Except ErrorKind State) : Prop :=
  ∀ u, r = .ok u → ∃ R, LiesOnCurve s R ∧ u = s.writeP d R

theorem writesOnCurve_ok {s : State} {d : PIdx} {R : PointRec} (h : LiesOnCurve s R) :
    WritesOnCurve s d (.ok (s.writeP d R)) := fun u hu => by cases hu; exact ⟨R, h, rfl⟩

theorem writesOnCurve_bind {α : Type} {s : State} {d : PIdx} {x : Except ErrorKind α}
    {f : α → Except ErrorKind State} (h : ∀ a, x = .ok a → WritesOnCurve s d (f a)) : WritesOnCurve s d (x >>= f) := by
  intro u hu
  obtain ⟨a, ha, hf⟩ := bind_eq_ok hu
  exact h a ha u hf

theorem WritesOnCurve.finish_cases {s t : State} {d : PIdx} {r : Except ErrorKind State} (hr : WritesOnCurve s d r)
    (h : finish s r = .next t) :
    (∃ e : ErrorKind, t = s.raise e) ∨ (∃ R, LiesOnCurve s R ∧ t = (s.writeP d R).completed) := by
  obtain ⟨u, hu, rfl⟩ | ⟨e, -, rfl⟩ := Machine.finish_cases h
  · obtain ⟨R, hR, rfl⟩ := hr u hu
    exact .inr ⟨R, hR, rfl⟩
  · exact .inl ⟨e, rfl⟩

/-- The generator lies on `y² = x³ + 7` (R244). -/
theorem generator_onCurve : OnCurve curveSecp (.finite (BitVec.ofNat 256 gx) (BitVec.ofNat 256 gy)) := by
  unfold OnCurve
  decide

/-- The group law on two valid points gives a point on its curve. -/
theorem padd_liesOnCurve {s : State} {A B R : PointRec} (hA : LiesOnCurve s A) (hB : LiesOnCurve s B)
    (h : padd s A B = .ok R) : LiesOnCurve s R := by
  obtain ⟨cv, cA, cB⟩ := curveOf_of_padd h
  exact ((hA cv cA).padd (hB cv cB) h).liesOnCurve

theorem smul_liesOnCurve {s : State} {A R : PointRec} {k : Nat} {cv : Curve} (hcv : curveOf s A.c = some cv)
    (hA : LiesOnCurve s A) (h : smul s k A = .ok R) : LiesOnCurve s R :=
  (PointOf.smulLoop _ k (pointOf_infinity hcv) (hA cv hcv) h).liesOnCurve

/-- `PCONS` checks the membership of the point it writes (R183); its coordinates are in range because its sources'
numbers are (R35 (b)). -/
theorem execPcons_writesOnCurve {s : State} (hi : s.Inv) (d : PIdx) (a b : FIdx) {t : State}
    (h : execPcons d a b s = .next t) :
    (∃ e : ErrorKind, t = s.raise e) ∨ (∃ R, LiesOnCurve s R ∧ t = (s.writeP d R).completed) := by
  refine WritesOnCurve.finish_cases (writesOnCurve_bind fun X hX => writesOnCurve_bind fun Y hY =>
    writesOnCurve_bind fun cv hcv => writesOnCurve_bind fun q hq => writesOnCurve_bind fun _ hpq =>
    writesOnCurve_bind fun _ hon => writesOnCurve_ok (PointOf.liesOnCurve (cv := cv) ?_)) h
  have hcv : curveOf s X.m = some cv := orRaise_eq_ok hcv
  have hpq : cv.p = q := by simpa using require_eq_ok hpq
  obtain ⟨p, hp, hx⟩ := hi.fieldsInRange a X (needF_eq_ok hX)
  obtain ⟨q', hq', hy⟩ := hi.fieldsInRange b Y (needF_eq_ok hY)
  obtain rfl : cv.p = p := by simpa [primeOf_of_curveOf hcv] using hp
  obtain rfl : q = q' := by simpa [orRaise_eq_ok hq] using hq'
  exact ⟨hcv, fun _ => ⟨hx, hpq ▸ hy, by simpa [onCurve] using require_eq_ok hon⟩⟩

/-- Everything a command with a point destination can do to a state whose points lie on their curves. -/
theorem exec_point_cases {i : Instr} {d : PIdx} {s t : State} (hd : destP i = some d) (hi : s.Inv)
    (hs : PointsLieOnCurves s) (h : exec i s = .next t) :
    (∃ e : ErrorKind, t = s.raise e) ∨ (∃ R, LiesOnCurve s R ∧ t = (s.writeP d R).completed) := by
  have valid : ∀ (j : PIdx) (A : PointRec), needP s j = .ok A → LiesOnCurve s A := fun j A hA =>
    pointsLieOnCurves_iff.1 hs j A (needP_eq_ok hA)
  cases i <;> cases hd
  case pcons a b => exact execPcons_writesOnCurve hi d a b h
  case pinf sel =>
    exact WritesOnCurve.finish_cases (writesOnCurve_bind fun _ _ => writesOnCurve_ok fun cv hcv =>
      pointOf_infinity hcv) h
  case pldg =>
    exact WritesOnCurve.finish_cases (writesOnCurve_ok
      (PointOf.liesOnCurve (cv := curveSecp) ⟨rfl, fun _ => generator_onCurve⟩)) h
  case padd a b =>
    exact WritesOnCurve.finish_cases (writesOnCurve_bind fun A hA => writesOnCurve_bind fun B hB =>
      writesOnCurve_bind fun R hR => writesOnCurve_ok (padd_liesOnCurve (valid a A hA) (valid b B hB) hR)) h
  case pdbl a =>
    exact WritesOnCurve.finish_cases (writesOnCurve_bind fun A hA =>
      writesOnCurve_bind fun R hR => writesOnCurve_ok (padd_liesOnCurve (valid a A hA) (valid a A hA) hR)) h
  case pmul a =>
    refine WritesOnCurve.finish_cases (writesOnCurve_bind fun A hA =>
      writesOnCurve_bind fun R hR => writesOnCurve_ok ?_) h
    obtain ⟨cv, hcv⟩ := hi.curve (needP_eq_ok hA)
    exact smul_liesOnCurve hcv (valid a A hA) hR

/-- The invariant depends on the point registers and the slots' curves only. -/
theorem pointsLieOnCurves_of_registers {s t : State} (h : PointsLieOnCurves s) (hP : t.P = s.P)
    (hpmod : t.pmod = s.pmod) (hcurve : t.curve0 = s.curve0) : PointsLieOnCurves t := fun j r cv hr hcv =>
  h j r cv (hP ▸ hr) ((curveOf_congr hpmod hcurve r.c).symm.trans hcv)

theorem pointsLieOnCurves_writeP {s : State} (h : PointsLieOnCurves s) (d : PIdx) {R : PointRec}
    (hR : LiesOnCurve s R) : PointsLieOnCurves (s.writeP d R) := by
  intro j r cv hr hcv
  rw [getElem_writeP] at hr
  have hcv : curveOf s r.c = some cv := (curveOf_congr rfl rfl r.c).symm.trans hcv
  split at hr
  next => cases hr; exact (hR cv hcv).2
  next => exact h j r cv hr hcv

/-- Points of slot 1 stay on their curve whatever happens to slot 0 (R122, R123). -/
theorem pointsLieOnCurves_keepSecp {s t : State} (h : PointsLieOnCurves s) (hP : t.P = s.P.map keepSecpP) :
    PointsLieOnCurves t := by
  intro j r cv hr hcv
  rw [hP, getElem_keepSecpP, keepSecpP_eq_some] at hr
  obtain ⟨hr, hc⟩ := hr
  exact h j r cv hr (by rw [hc] at hcv ⊢; exact hcv)

/-- The writes of a command without a point destination keep the points on their curves. -/
theorem Commits.pointsLieOnCurves {i : Instr} {s u : State} (hc : Commits i s u) (hd : destP i = none)
    (h : PointsLieOnCurves s) : PointsLieOnCurves u := by
  cases hc with
  | nothing => exact h
  | modulus | curve => exact pointsLieOnCurves_keepSecp h rfl
  | point _ d _ _ hd' => rw [hd] at hd'; cases hd'
  | scalar | out | field | equalF | equalP | infinite => exact pointsLieOnCurves_of_registers h rfl rfl rfl

theorem exec_pointsLieOnCurves {i : Instr} {s t : State} (hi : s.Inv) (h : PointsLieOnCurves s)
    (he : exec i s = .next t) : PointsLieOnCurves t := by
  cases hd : destP i with
  | none =>
    obtain ⟨e, -, rfl⟩ | ⟨u, hu, rfl⟩ := exec_cases he
    · exact pointsLieOnCurves_of_registers h rfl rfl rfl
    · exact pointsLieOnCurves_of_registers (hu.pointsLieOnCurves hd h) rfl rfl rfl
  | some d =>
    obtain ⟨e, rfl⟩ | ⟨R, hR, rfl⟩ := exec_point_cases hd hi h he
    · exact pointsLieOnCurves_of_registers h rfl rfl rfl
    · exact pointsLieOnCurves_of_registers (pointsLieOnCurves_writeP h d hR) rfl rfl rfl

theorem complete_pointsLieOnCurves {s t : State} (hi : s.Inv) (h : PointsLieOnCurves s)
    (hc : complete s = .next t) : PointsLieOnCurves t := by
  obtain ⟨-, rfl⟩ | ⟨-, -, rfl⟩ | ⟨-, i, -, he⟩ := complete_cases hc
  · exact h
  · exact pointsLieOnCurves_of_registers h rfl rfl rfl
  · exact exec_pointsLieOnCurves hi h he

theorem reset_pointsLieOnCurves : PointsLieOnCurves State.reset := by
  intro j r cv hr
  simp [State.reset] at hr

theorem resetCore_pointsLieOnCurves (s : State) : PointsLieOnCurves s.resetCore :=
  pointsLieOnCurves_of_registers reset_pointsLieOnCurves rfl rfl rfl

theorem writePort_pointsLieOnCurves {s : State} (h : PointsLieOnCurves s) (w : PortWord) (d : Word) :
    PointsLieOnCurves (writePort s w d) := by
  by_cases hsoft : w = .ctrl ∧ d.getLsbD 31 = true
  · obtain ⟨rfl, h31⟩ := hsoft
    rw [writePort, writeCtrl, if_pos h31]
    exact resetCore_pointsLieOnCurves s
  · obtain ⟨-, hP, hpmod, hcurve, -⟩ := writePort_frame s w d hsoft
    exact pointsLieOnCurves_of_registers h hP hpmod hcurve

/-- Settles O58. -/
theorem resetPointsLieOnCurves : Obligations.ResetPointsLieOnCurves := reset_pointsLieOnCurves

/-- Settles O59: the invariants of R35 and the points' place on their curves are kept together. -/
theorem stepKeepsPointsOnCurves : Obligations.StepKeepsPointsOnCurves := fun _ _ hi hs h =>
  (step_keeps (Q := fun s => s.Inv ∧ PointsLieOnCurves s)
    (fun _ evs log h => ⟨h.1.world evs log, pointsLieOnCurves_of_registers h.2 rfl rfl rfl⟩)
    (fun _ _ h hc => ⟨complete_inv h.1 hc, complete_pointsLieOnCurves h.1 h.2 hc⟩)
    (fun _ w d h => ⟨writePort_inv h.1 w d, writePort_pointsLieOnCurves h.2 w d⟩)
    (fun s _ => ⟨resetCore_inv s, resetCore_pointsLieOnCurves s⟩) ⟨hi, hs⟩ h).2

end Sys2Proof.Machine
end

section
/-! # Frames, the host's port and the interrupt wire

SUPPORT. What a command leaves unchanged (R21 to R28, R37), what the host reads and writes through the port (R65, R69),
the two resets (R300) and `irq` (R267). -/

namespace Sys2Proof.Machine

open Sys2Proof.Spec

/-! ### Frames of the commands -/

/-- The flags a command writes (R37): only the comparisons, and they raise no error when they do. -/
theorem Commits.flags_frame {i : Instr} {s u : State} (h : Commits i s u) :
    (u.eqFlag ≠ s.eqFlag → (∃ a b, i = .feq a b) ∨ (∃ a b, i = .peq a b)) ∧
    (u.infFlag ≠ s.infFlag → ∃ a, i = .ptest a) ∧ u.err = s.err := by
  cases h with
  | nothing | modulus | curve | scalar | out | field | point | equalF | equalP | infinite => simp

/-- The wide registers, the enables, `OVR`, the latch and the world outside under the writes of a command. -/
theorem Commits.wide_frame {i : Instr} {s u : State} (h : Commits i s u) :
    (u.pmod ≠ s.pmod → i = .mset) ∧
    (u.curve0 ≠ s.curve0 → i = .mset ∨ ∃ a b, i = .cset a b) ∧
    (u.K ≠ s.K → i = .kldn) ∧
    (u.dout ≠ s.dout → ∃ a, i = .fget a) ∧
    u.dinl = s.dinl ∧ u.dinh = s.dinh ∧ u.ieDone = s.ieDone ∧ u.ieErr = s.ieErr ∧ u.ovr = s.ovr ∧
    u.cmdLatch = s.cmdLatch ∧ u.events = s.events ∧ u.readLog = s.readLog := by
  cases h with
  | nothing | modulus | curve | scalar | out | field | point | equalF | equalP | infinite => simp

theorem Commits.fields_frame {i : Instr} {s u : State} (h : Commits i s u) (j : FIdx) :
    (destF i ≠ some j → u.F[j] = s.F[j] ∨ (i = .mset ∧ u.F[j] = none)) ∧
    (destF i = some j → u.F[j] = s.F[j] ∨ u.F[j].isSome = true) := by
  cases h with
  | modulus =>
    rw [State.setModulus_F, getElem_keepSecpF]
    exact ⟨fun _ => (keepSecpF_eq_or_none _).imp id fun hn => ⟨rfl, hn⟩, fun hd => by cases hd⟩
  | field _ d _ _ _ hd =>
    rw [getElem_writeF, hd]
    by_cases hj : d = j <;> simp [hj]
  | nothing | curve | scalar | out | point | equalF | equalP | infinite => exact ⟨fun _ => .inl rfl, fun _ => .inl rfl⟩

theorem Commits.points_frame {i : Instr} {s u : State} (h : Commits i s u) (j : PIdx) :
    (destP i ≠ some j → u.P[j] = s.P[j] ∨ ((i = .mset ∨ ∃ a b, i = .cset a b) ∧ u.P[j] = none)) ∧
    (destP i = some j → u.P[j] = s.P[j] ∨ u.P[j].isSome = true) := by
  cases h with
  | modulus =>
    rw [State.setModulus_P, getElem_keepSecpP]
    exact ⟨fun _ => (keepSecpP_eq_or_none _).imp id fun hn => ⟨.inl rfl, hn⟩, fun hd => by cases hd⟩
  | curve a b =>
    rw [State.setCurve_P, getElem_keepSecpP]
    exact ⟨fun _ => (keepSecpP_eq_or_none _).imp id fun hn => ⟨.inr ⟨a, b, rfl⟩, hn⟩, fun hd => by cases hd⟩
  | point _ d _ _ hd =>
    rw [getElem_writeP, hd]
    by_cases hj : d = j <;> simp [hj]
  | nothing | scalar | out | field | equalF | equalP | infinite => exact ⟨fun _ => .inl rfl, fun _ => .inl rfl⟩

/-- Settles O12. -/
theorem wideRegistersFrame : Obligations.WideRegistersFrame := by
  intro i s t h
  obtain ⟨e, -, rfl⟩ | ⟨u, hu, rfl⟩ := exec_cases h
  · simp
  · exact hu.wide_frame

/-- Settles O13. -/
theorem fieldRegistersFrame : Obligations.FieldRegistersFrame := by
  intro i s t j h
  obtain ⟨e, -, rfl⟩ | ⟨u, hu, rfl⟩ := exec_cases h
  · exact ⟨fun _ => .inl rfl, fun _ => .inl rfl⟩
  · exact hu.fields_frame j

/-- Settles O14. -/
theorem pointRegistersFrame : Obligations.PointRegistersFrame := by
  intro i s t j h
  obtain ⟨e, -, rfl⟩ | ⟨u, hu, rfl⟩ := exec_cases h
  · exact ⟨fun _ => .inl rfl, fun _ => .inl rfl⟩
  · exact hu.points_frame j

/-! ### The host's port -/

/-- What a step does when a host read inside the window is next (R65). -/
theorem step_busRead {s : State} {addr : Nat} {w : PortWord} {rest : List Event}
    (he : s.events = .busRead addr :: rest) (hw : portWord addr = some w) :
    step s = .next { s with events := rest, readLog := readPort s w :: s.readLog } := by
  have hread : readPort { s with events := rest } w = readPort s w := by cases w <;> rfl
  simp only [step, move, he, happen, hostRead, busRead, hw, Option.map_some, hread]

/-- What a step does when a host write inside the window is next (R66). -/
theorem step_busWrite {s : State} {addr : Nat} {d : Word} {w : PortWord} {rest : List Event}
    (he : s.events = .busWrite addr d :: rest) (hw : portWord addr = some w) :
    step s = .next (writePort { s with events := rest } w d) := by
  simp only [step, move, he, happen, hostWrite, hw]

theorem step_reset {s : State} {rest : List Event} (he : s.events = .reset :: rest) :
    step s = .next (State.resetCore { s with events := rest }) := by
  simp only [step, move, he, happen]

theorem writePort_ctrl_softReset (s : State) {d : Word} (h : d.getLsbD 31 = true) :
    writePort s .ctrl d = s.resetCore := by
  rw [writePort, writeCtrl, if_pos h]

/-- `CTRL` stands at one offset only (R61). -/
theorem portWord_eq_ctrl {addr : Nat} (h : portWord addr = some .ctrl) : addr = 0x008 := by
  unfold portWord at h
  grind

/-- Every aligned offset of the window is a word of the map (R60, R61). -/
theorem portWord_isSome {addr : Nat} (hal : addr % 4 = 0) (hwin : addr < 0x400) : ∃ w, portWord addr = some w := by
  unfold portWord Config.windowBytes
  rw [if_neg (by omega)]
  split_ifs <;> exact ⟨_, rfl⟩

/-- A host access that is no soft reset writes no flag (R37). -/
theorem plainAccess_keeps_flags {s t : State} {e : Event} {rest : List Event} (he : s.events = e :: rest)
    (hplain : e.isPlainAccess = true) (h : step s = .next t) : t.eqFlag = s.eqFlag ∧ t.infFlag = s.infFlag := by
  obtain ⟨hev, -⟩ | ⟨_, hev, -⟩ | ⟨_, _, _, -, rfl⟩ | ⟨a, d, w, rest', hev, hw, rfl⟩ | ⟨_, hev, -⟩ := step_cases h
  · rw [he] at hev; cases hev
  · rw [he] at hev; cases hev; cases hplain
  · exact ⟨rfl, rfl⟩
  · rw [he] at hev
    cases hev
    have hnot : ¬ (w = .ctrl ∧ d.getLsbD 31 = true) := by
      rintro ⟨rfl, h31⟩
      rw [Event.isPlainAccess, portWord_eq_ctrl hw, h31] at hplain
      simp at hplain
    obtain ⟨-, -, -, -, -, heq, hinf, -⟩ := writePort_frame { s with events := rest } w d hnot
    exact ⟨heq, hinf⟩
  · rw [he] at hev; cases hev; cases hplain

/-- Settles O11. -/
theorem flagsOnlyByComparisons : Obligations.FlagsOnlyByComparisons := by
  refine ⟨fun i s t h => ?_, fun s t e rest he hplain h => plainAccess_keeps_flags he hplain h⟩
  obtain ⟨e, -, rfl⟩ | ⟨u, hu, rfl⟩ := exec_cases h
  · simp
  · obtain ⟨heq, hinf, herr⟩ := hu.flags_frame
    exact ⟨heq, hinf, fun hne => absurd herr hne⟩

/-! ### The words of `CTRL` and `STATUS` -/

/-- The bits of `CTRL` as it is read (R30). -/
theorem ctrlWord_bits (s : State) :
    s.ctrlWord.getLsbD 0 = s.ieDone ∧ s.ctrlWord.getLsbD 1 = s.ieErr ∧
      ∀ k, 2 ≤ k → s.ctrlWord.getLsbD k = false := by
  unfold State.ctrlWord
  refine ⟨?_, ?_, fun k hk => ?_⟩
  · cases s.ieDone <;> cases s.ieErr <;> rfl
  · cases s.ieDone <;> cases s.ieErr <;> rfl
  · have hsmall : s.ieDone.toNat + 2 * s.ieErr.toNat < 2 ^ 2 := by
      have := s.ieDone.toNat_le
      have := s.ieErr.toNat_le
      omega
    rw [BitVec.getLsbD_ofNat, Nat.testBit_lt_two_pow (hsmall.trans_le (Nat.pow_le_pow_right (by decide) hk)),
      Bool.and_false]

/-- The number in bits 5:0 of `STATUS` (R29). -/
def State.statusBits (s : State) : Nat :=
  s.busy.toNat + 2 * s.done.toNat + 4 * s.err.toNat + 8 * s.ovr.toNat + 16 * s.eqFlag.toNat + 32 * s.infFlag.toNat

theorem statusBits_lt (s : State) : s.statusBits < 2 ^ 6 := by
  unfold State.statusBits
  have := s.busy.toNat_le
  have := s.done.toNat_le
  have := s.err.toNat_le
  have := s.ovr.toNat_le
  have := s.eqFlag.toNat_le
  have := s.infFlag.toNat_le
  omega

theorem statusBits_testBit (s : State) :
    s.statusBits.testBit 0 = s.busy ∧ s.statusBits.testBit 1 = s.done ∧ s.statusBits.testBit 2 = s.err ∧
    s.statusBits.testBit 3 = s.ovr ∧ s.statusBits.testBit 4 = s.eqFlag ∧ s.statusBits.testBit 5 = s.infFlag := by
  unfold State.statusBits
  generalize s.busy = b, s.done = d, s.err = e, s.ovr = o, s.eqFlag = q, s.infFlag = i
  revert b d e o q i
  decide

/-- `STATUS` holds `ERRCODE` in bits 15:8 above the named bits (R29). -/
theorem statusWord_getLsbD (s : State) (k : Nat) (hk : k < 32) :
    s.statusWord.getLsbD k = if k < 8 then s.statusBits.testBit k else s.errCode.getLsbD (k - 8) := by
  have hword : s.statusWord = BitVec.ofNat 32 (2 ^ 8 * s.errCode.toNat + s.statusBits) := by
    unfold State.statusWord State.statusBits
    congr 1
    omega
  have hlow : s.statusBits < 2 ^ 8 := (statusBits_lt s).trans (by decide)
  rw [hword, BitVec.getLsbD_ofNat, decide_eq_true hk, Bool.true_and, Nat.testBit_two_pow_mul_add _ hlow]
  rfl

/-- The bits of `STATUS` (R29). -/
theorem statusWord_bits (s : State) :
    s.statusWord.getLsbD 0 = s.busy ∧ s.statusWord.getLsbD 1 = s.done ∧ s.statusWord.getLsbD 2 = s.err ∧
    s.statusWord.getLsbD 3 = s.ovr ∧ s.statusWord.getLsbD 4 = s.eqFlag ∧ s.statusWord.getLsbD 5 = s.infFlag ∧
    s.statusWord.getLsbD 6 = false ∧ s.statusWord.getLsbD 7 = false ∧
    s.statusWord.extractLsb' 8 8 = s.errCode ∧ ∀ k, 16 ≤ k → s.statusWord.getLsbD k = false := by
  have hreserved : ∀ k, 6 ≤ k → s.statusBits.testBit k = false := fun k hk =>
    Nat.testBit_lt_two_pow ((statusBits_lt s).trans_le (Nat.pow_le_pow_right (by decide) hk))
  obtain ⟨h0, h1, h2, h3, h4, h5⟩ := statusBits_testBit s
  have low : ∀ k, k < 8 → s.statusWord.getLsbD k = s.statusBits.testBit k := fun k hk => by
    rw [statusWord_getLsbD s k (by omega), if_pos hk]
  refine ⟨(low 0 (by decide)).trans h0, (low 1 (by decide)).trans h1, (low 2 (by decide)).trans h2,
    (low 3 (by decide)).trans h3, (low 4 (by decide)).trans h4, (low 5 (by decide)).trans h5,
    (low 6 (by decide)).trans (hreserved 6 (by decide)), (low 7 (by decide)).trans (hreserved 7 (by decide)),
    BitVec.eq_of_getLsbD_eq fun k hk => ?_, fun k hk => ?_⟩
  · rw [BitVec.getLsbD_extractLsb', statusWord_getLsbD s _ (by omega), if_neg (by omega)]
    simp [hk]
  · by_cases hlt : k < 32
    · rw [statusWord_getLsbD s k hlt, if_neg (by omega), BitVec.getLsbD_of_ge _ _ (by omega)]
    · exact BitVec.getLsbD_of_ge _ _ (by omega)

/-- The offsets of the words of the four wide registers (R61). -/
theorem portWord_wide (i : Fin 8) :
    portWord (0x020 + 4 * i.val) = some (.dinl i) ∧ portWord (0x040 + 4 * i.val) = some (.dinh i) ∧
    portWord (0x060 + 4 * i.val) = some (.k i) ∧ portWord (0x080 + 4 * i.val) = some (.dout i) := by
  revert i
  decide

/-- Settles O21. -/
theorem readReturnsTheWord : Obligations.ReadReturnsTheWord := by
  intro s addr rest he hal hwin
  obtain ⟨w, hw⟩ := portWord_isSome hal hwin
  have at_word : ∀ {a : Nat} {w' : PortWord}, portWord a = some w' → addr = a → readPort s w = readPort s w' := by
    rintro a w' hw' rfl
    rw [hw] at hw'
    cases hw'
    rfl
  refine ⟨readPort s w, step_busRead he hw, fun ha => ?_, at_word (w' := .errcmd) rfl, fun i => ?_⟩
  · rw [at_word (w' := .status) rfl ha]
    exact statusWord_bits s
  · obtain ⟨hdinl, hdinh, hk, hdout⟩ := portWord_wide i
    exact ⟨at_word hdinl, at_word hdinh, at_word hk, at_word hdout⟩

/-! ### Resets and `CTRL` -/

theorem isReset_reset : IsReset State.reset := by
  refine ⟨fun i => ?_, fun j => ?_, rfl, rfl, rfl, rfl, rfl, rfl, rfl, rfl, rfl, rfl, rfl, rfl, rfl, rfl, rfl, rfl, rfl⟩
  · simp [State.reset]
  · simp [State.reset]

theorem isReset_resetCore (s : State) : IsReset s.resetCore := isReset_reset

/-- Settles O19. -/
theorem resetFromEveryState : Obligations.ResetFromEveryState := by
  refine ⟨isReset_reset, fun s rest d h => ⟨State.resetCore { s with events := rest }, ?_, isReset_resetCore _, rfl, rfl⟩⟩
  obtain he | ⟨he, h31⟩ := h
  · exact step_reset he
  · rw [step_busWrite (w := .ctrl) he rfl, writePort_ctrl_softReset _ h31]

/-- Settles O18. -/
theorem ctrlWrite : Obligations.CtrlWrite := by
  intro s d rest he
  have hstep := step_busWrite (w := .ctrl) he rfl
  refine ⟨fun h31 => ?_, fun h31 => ?_, fun s' he' => ?_⟩
  · rw [hstep, writePort, writeCtrl_eq _ d h31]
  · exact ⟨_, by rw [hstep, writePort_ctrl_softReset _ h31], isReset_resetCore _⟩
  · exact ⟨s'.ctrlWord, step_busRead (w := .ctrl) he' rfl, ctrlWord_bits s'⟩

/-! ### The interrupt wire -/

theorem irq_of_done_err {s : State} (hdone : s.done = false) (herr : s.err = false) : s.irq = false := by
  simp [State.irq, hdone, herr]

/-- After a completion `irq` shows the enabled sources (R267). -/
theorem exec_irq {i : Instr} {s t : State} (h : exec i s = .next t) :
    t.irq = (s.ieDone || (t.err && s.ieErr)) := by
  have hdone : t.done = true := by
    obtain ⟨e, -, rfl⟩ | ⟨u, -, rfl⟩ := exec_cases h <;> rfl
  obtain ⟨-, -, -, -, -, -, hieDone, hieErr, -⟩ := wideRegistersFrame i s t h
  rw [State.irq, hdone, hieDone, hieErr, Bool.true_and]

/-- Settles O24. -/
theorem interruptLevel : Obligations.InterruptLevel := by
  refine ⟨fun i s t h => exec_irq h, fun s t w rest he hbusy herr h => ?_, fun s t d rest he h h8 h10 => ?_,
    fun s t rest he h => ?_⟩
  · rw [step_busWrite (w := .cmd) he rfl, writePort, writeCmd, if_neg (by simp [hbusy, herr])] at h
    cases h
    exact irq_of_done_err rfl herr
  · rw [step_busWrite (w := .ctrl) he rfl] at h
    cases h
    cases h31 : d.getLsbD 31 with
    | true =>
      rw [writePort_ctrl_softReset _ h31]
      rfl
    | false =>
      rw [writePort, writeCtrl_eq _ d h31]
      exact irq_of_done_err (by simp only [h10, if_true]) (by simp only [h8, if_true])
  · rw [step_reset he] at h
    cases h
    rfl

end Sys2Proof.Machine
end

section
/-! # The memory family: the host's port around a command

SUPPORT. Which words of the map an access meets (R60, R61), what a write to each does (R66 to R70, R77), and that a
command neither reads nor writes what the host can change while it runs (R71, R72). -/

namespace Sys2Proof.Machine

open Sys2Proof.Spec

/-! ### A command does not see the host's side -/

/-- `s` with what a plain access can change while the core is busy taken from `v`: `OVR`, the interrupt enables and the
world outside. -/
def State.withHostOf (s v : State) : State :=
  { s with ovr := v.ovr, ieDone := v.ieDone, ieErr := v.ieErr, events := v.events, readLog := v.readLog }

theorem State.withHostOf_trans (s u v : State) : (s.withHostOf u).withHostOf v = s.withHostOf v := rfl

/-- A pseudocode that does not read the host's side and leaves it as it is. -/
def IgnoresHost (r : State → Except ErrorKind State) : Prop :=
  ∀ s v, r (s.withHostOf v) = (r s).map (·.withHostOf v)

theorem ignoresHost_ok {f : State → State} (hf : ∀ s v, f (s.withHostOf v) = (f s).withHostOf v) :
    IgnoresHost fun s => .ok (f s) :=
  fun s v => congrArg Except.ok (hf s v)

theorem ignoresHost_error (e : ErrorKind) : IgnoresHost fun _ => .error e := fun _ _ => rfl

theorem ignoresHost_bind {α : Type} {x : State → Except ErrorKind α} {f : α → State → Except ErrorKind State}
    (hx : ∀ s v, x (s.withHostOf v) = x s) (hf : ∀ a, IgnoresHost (f a)) :
    IgnoresHost fun s => x s >>= fun a => f a s := by
  intro s v
  change (x (s.withHostOf v) >>= _) = (x s >>= _).map _
  rw [hx]
  cases x s with
  | ok a => exact hf a s v
  | error e => rfl

theorem smulLoop_withHostOf (s v : State) :
    ∀ (n k : Nat) (r c : PointRec), smulLoop (s.withHostOf v) n k r c = smulLoop s n k r c
  | 0, _, _, _ => rfl
  | n + 1, k, r, c => by
    have hadd : addIfSet (s.withHostOf v) k r c = addIfSet s k r c := rfl
    have hdbl : padd (s.withHostOf v) c c = padd s c c := rfl
    simp only [smulLoop, hadd, hdbl, smulLoop_withHostOf s v n]

theorem smul_withHostOf (s v : State) (A : PointRec) :
    smul (s.withHostOf v) (scalarFor (s.withHostOf v) A.c) A = smul s (scalarFor s A.c) A :=
  smulLoop_withHostOf s v _ _ _ _

theorem ignoresHost_binary (d a b : FIdx) (f : Nat → Nat → Nat → Nat) :
    IgnoresHost fun s => needSameField s a b >>= fun (A, B, p) => .ok (s.writeF d A.m (f A.num.toNat B.num.toNat p)) :=
  ignoresHost_bind (fun _ _ => rfl) fun ⟨_, _, _⟩ => ignoresHost_ok fun _ _ => rfl

/-- Every command is a pseudocode that ignores the host's side, followed by the common end of a step (R120). -/
theorem exec_eq_finish (i : Instr) :
    ∃ r : State → Except ErrorKind State, (∀ s, exec i s = finish s (r s)) ∧ IgnoresHost r := by
  cases i with
  | nop => exact ⟨fun s => .ok s, fun _ => rfl, ignoresHost_ok fun _ _ => rfl⟩
  | kldn => exact ⟨fun s => .ok (s.setK _), fun _ => rfl, ignoresHost_ok fun _ _ => rfl⟩
  | fred d => exact ⟨fun s => .ok (s.writeF d .secp _), fun _ => rfl, ignoresHost_ok fun _ _ => rfl⟩
  | pldg d => exact ⟨fun s => .ok (s.writeP d _), fun _ => rfl, ignoresHost_ok fun _ _ => rfl⟩
  | mset | fget | pinf | ptest =>
    exact ⟨_, fun _ => rfl, ignoresHost_bind (fun _ _ => rfl) fun _ => ignoresHost_ok fun _ _ => rfl⟩
  | fcons | fpow | feq | pdbl | peq =>
    exact ⟨_, fun _ => rfl, ignoresHost_bind (fun _ _ => rfl) fun _ => ignoresHost_bind (fun _ _ => rfl) fun _ =>
      ignoresHost_ok fun _ _ => rfl⟩
  | finv | padd =>
    exact ⟨_, fun _ => rfl, ignoresHost_bind (fun _ _ => rfl) fun _ => ignoresHost_bind (fun _ _ => rfl) fun _ =>
      ignoresHost_bind (fun _ _ => rfl) fun _ => ignoresHost_ok fun _ _ => rfl⟩
  | fadd d a b => exact ⟨_, fun _ => rfl, ignoresHost_binary d a b fadd⟩
  | fsub d a b => exact ⟨_, fun _ => rfl, ignoresHost_binary d a b fsub⟩
  | fmul d a b => exact ⟨_, fun _ => rfl, ignoresHost_binary d a b fmul⟩
  | fdiv =>
    exact ⟨_, fun _ => rfl, ignoresHost_bind (fun _ _ => rfl) fun ⟨_, _, _⟩ =>
      ignoresHost_bind (fun _ _ => rfl) fun _ => ignoresHost_ok fun _ _ => rfl⟩
  | cset =>
    exact ⟨_, fun _ => rfl, ignoresHost_bind (fun _ _ => rfl) fun _ => ignoresHost_bind (fun _ _ => rfl) fun _ =>
      ignoresHost_bind (fun _ _ => rfl) fun _ => ignoresHost_bind (fun _ _ => rfl) fun _ =>
      ignoresHost_ok fun _ _ => rfl⟩
  | pcons =>
    exact ⟨_, fun _ => rfl, ignoresHost_bind (fun _ _ => rfl) fun _ => ignoresHost_bind (fun _ _ => rfl) fun _ =>
      ignoresHost_bind (fun _ _ => rfl) fun _ => ignoresHost_bind (fun _ _ => rfl) fun _ =>
      ignoresHost_bind (fun _ _ => rfl) fun _ => ignoresHost_bind (fun _ _ => rfl) fun _ =>
      ignoresHost_ok fun _ _ => rfl⟩
  | pgetx | pgety =>
    refine ⟨_, fun _ => rfl, ignoresHost_bind (fun _ _ => rfl) fun A => ?_⟩
    cases hpt : A.pt with
    | infinity => exact ignoresHost_error .absentValue
    | finite x y => exact ignoresHost_ok fun _ _ => rfl
  | pmul =>
    exact ⟨_, fun _ => rfl, ignoresHost_bind (fun _ _ => rfl) fun A =>
      ignoresHost_bind (fun s v => smul_withHostOf s v A) fun _ => ignoresHost_ok fun _ _ => rfl⟩

/-- A command answers a next state in every state (R120). -/
theorem exec_next (i : Instr) (s : State) : ∃ t, exec i s = .next t := by
  obtain ⟨r, hr, -⟩ := exec_eq_finish i
  exact hr s ▸ finish_next s (r s)

/-- A command has the same result whatever the host's side holds, and leaves that side as it is. -/
theorem exec_withHostOf {i : Instr} {s t : State} (h : exec i s = .next t) (v : State) :
    exec i (s.withHostOf v) = .next (t.withHostOf v) := by
  obtain ⟨r, hr, hignores⟩ := exec_eq_finish i
  rw [hr] at h ⊢
  rw [hignores]
  obtain ⟨u, hu, rfl⟩ | ⟨e, hu, rfl⟩ := finish_cases h <;> rw [hu] <;> rfl

/-! ### The core's turn -/

theorem step_noEvent {s : State} (he : s.events = []) : step s = complete s := by
  simp only [step, move, he]

theorem step_complete {s : State} {rest : List Event} (he : s.events = .complete :: rest) :
    step s = complete { s with events := rest } := by
  simp only [step, move, he, happen]

/-- A busy core whose latched word is illegal raises the error (R96, R120). -/
theorem complete_illegal {s : State} (hbusy : s.busy = true) (hillegal : decode s.cmdLatch = none) :
    complete s = .next (s.raise .illegalCommand) := by
  simp only [complete, if_pos hbusy, completeBusy, fetch, hillegal]

/-- A busy core whose latched word is legal executes its command (R120). -/
theorem complete_legal {s : State} {i : Instr} (hbusy : s.busy = true) (hi : decode s.cmdLatch = some i) :
    complete s = exec i s := by
  simp only [complete, if_pos hbusy, completeBusy, fetch, hi]

/-- A busy core's turn ends with `BUSY = 0` and `DONE = 1`, also where it raises an error (R120, R263). -/
theorem complete_of_busy {s : State} (hbusy : s.busy = true) :
    ∃ t, complete s = .next t ∧ t.busy = false ∧ t.done = true := by
  cases hd : decode s.cmdLatch with
  | none => exact ⟨_, complete_illegal hbusy hd, rfl, rfl⟩
  | some i =>
    obtain ⟨t, ht⟩ := exec_next i s
    refine ⟨t, (complete_legal hbusy hd).trans ht, ?_⟩
    obtain ⟨e, -, rfl⟩ | ⟨u, -, rfl⟩ := exec_cases ht <;> exact ⟨rfl, rfl⟩

theorem complete_next (s : State) : ∃ t, complete s = .next t := by
  cases hbusy : s.busy with
  | true =>
    obtain ⟨t, ht, -⟩ := complete_of_busy hbusy
    exact ⟨t, ht⟩
  | false => exact ⟨s, by simp [complete, hbusy]⟩

theorem complete_ovr {s t : State} (h : complete s = .next t) : t.ovr = s.ovr := by
  obtain ⟨-, rfl⟩ | ⟨-, -, rfl⟩ | ⟨-, i, -, hexec⟩ := complete_cases h
  · rfl
  · rfl
  · obtain ⟨-, -, -, -, -, -, -, -, hovr, -⟩ := wideRegistersFrame i s t hexec
    exact hovr

/-! ### The address map -/

/-- A misaligned offset, and one outside the window, is no word of the map (R60, R64). -/
theorem portWord_eq_none {addr : Nat} (h : addr % 4 ≠ 0 ∨ 0x400 ≤ addr) : portWord addr = none := if_pos h

theorem portWord_reserved {addr : Nat} (hal : addr % 4 = 0)
    (h : (0x010 ≤ addr ∧ addr < 0x020) ∨ (0x0A0 ≤ addr ∧ addr < 0x400)) : portWord addr = some .reserved := by
  unfold portWord Config.windowBytes
  grind

theorem portWord_dout {addr : Nat} (hal : addr % 4 = 0) (h : 0x080 ≤ addr ∧ addr < 0x0A0) :
    portWord addr = some (.dout (wordIndex addr)) := by
  unfold portWord Config.windowBytes
  grind

/-- The words of the three data registers a host writes (R61). -/
theorem portWord_data {addr : Nat} (hal : addr % 4 = 0) (h : 0x020 ≤ addr ∧ addr < 0x080) :
    ∃ i, portWord addr = some (.dinl i) ∨ portWord addr = some (.dinh i) ∨ portWord addr = some (.k i) := by
  refine ⟨wordIndex addr, ?_⟩
  unfold portWord Config.windowBytes
  grind

theorem step_busRead_refused {s : State} {addr : Nat} {rest : List Event} (he : s.events = .busRead addr :: rest)
    (hw : portWord addr = none) : step s = .refused (.notAHostStep addr) := by
  simp only [step, move, he, happen, hostRead, busRead, hw, Option.map_none]

theorem step_busWrite_refused {s : State} {addr : Nat} {d : Word} {rest : List Event}
    (he : s.events = .busWrite addr d :: rest) (hw : portWord addr = none) :
    step s = .refused (.notAHostStep addr) := by
  simp only [step, move, he, happen, hostWrite, hw]

/-- Settles O10, by the kinds of the first pending event. -/
theorem onlyBadAccessesAreRefused : Obligations.OnlyBadAccessesAreRefused := by
  refine fun s => ⟨fun addr d rest hbad he => ?_, fun hgood => ?_⟩
  · obtain he | he := he
    · exact step_busRead_refused he (portWord_eq_none hbad)
    · exact step_busWrite_refused he (portWord_eq_none hbad)
  · cases he : s.events with
    | nil => exact step_noEvent he ▸ complete_next s
    | cons e rest =>
      cases e with
      | busRead addr =>
        obtain ⟨hal, hwin⟩ := hgood addr 0 rest (.inl he)
        obtain ⟨w, hw⟩ := portWord_isSome hal hwin
        exact ⟨_, step_busRead he hw⟩
      | busWrite addr d =>
        obtain ⟨hal, hwin⟩ := hgood addr d rest (.inr he)
        obtain ⟨w, hw⟩ := portWord_isSome hal hwin
        exact ⟨_, step_busWrite he hw⟩
      | reset => exact ⟨_, step_reset he⟩
      | complete => exact step_complete he ▸ complete_next _

/-- Settles O20, by the parts of the map. -/
theorem reservedAndReadOnlyWords : Obligations.ReservedAndReadOnlyWords := by
  refine fun s addr rest hal => ⟨fun d he h => ?_, fun he h => ?_⟩
  · obtain hreserved | rfl | rfl | hdout := h
    · exact step_busWrite he (portWord_reserved hal hreserved)
    · exact step_busWrite (w := .status) he rfl
    · exact step_busWrite (w := .errcmd) he rfl
    · exact step_busWrite he (portWord_dout hal hdout)
  · obtain hreserved | rfl := h
    · exact step_busRead he (portWord_reserved hal hreserved)
    · exact step_busRead (w := .cmd) he rfl

/-! ### Accepted and discarded writes -/

/-- A step over a host write whose effect on the port's word is known. -/
theorem step_busWrite_eq {s t : State} {addr : Nat} {d : Word} {w : PortWord} {rest : List Event}
    (he : s.events = .busWrite addr d :: rest) (hw : portWord addr = some w)
    (ht : writePort { s with events := rest } w d = t) : step s = .next t :=
  (step_busWrite he hw).trans (congrArg _ ht)

/-- While the core is busy or an error is uncleared a write to `CMD` is discarded and recorded (R67, R264). -/
theorem writePort_cmd_lost {s : State} (h : s.busy = true ∨ s.err = true) (w : Word) : writePort s .cmd w = s.lost :=
  if_pos h

/-- Otherwise the word is accepted (R68). -/
theorem writePort_cmd_accept {s : State} (hbusy : s.busy = false) (herr : s.err = false) (w : Word) :
    writePort s .cmd w = s.accept w :=
  if_neg (by simp [hbusy, herr])

/-- While the core is busy a write of a data word is discarded and recorded (R67). -/
theorem writePort_data_lost {s : State} (hbusy : s.busy = true) (i : Fin 8) (d : Word) :
    writePort s (.dinl i) d = s.lost ∧ writePort s (.dinh i) d = s.lost ∧ writePort s (.k i) d = s.lost :=
  ⟨if_pos hbusy, if_pos hbusy, if_pos hbusy⟩

/-- While the core is not busy a write of a data word replaces it in its register (R66). -/
theorem writePort_data {s : State} (hbusy : s.busy = false) (i : Fin 8) (d : Word) :
    writePort s (.dinl i) d = { s with dinl := setWord s.dinl i d } ∧
    writePort s (.dinh i) d = { s with dinh := setWord s.dinh i d } ∧
    writePort s (.k i) d = { s with K := setWord s.K i d } := by
  simp [writePort, hbusy]

/-- Settles O6: the accept of the word, then the turn of a busy core. -/
theorem acceptLatchesTheWord : Obligations.AcceptLatchesTheWord := by
  refine fun s w rest hbusy herr he => ⟨?_, ?_⟩
  · exact step_busWrite_eq he rfl (writePort_cmd_accept (s := { s with events := rest }) hbusy herr w)
  · rw [step_noEvent rfl]
    exact complete_of_busy rfl

/-- A replaced word reads back as the data, every other word as before (R62, R66). -/
theorem setWord_replaces (v : Value) (i : Fin 8) (d : Word) :
    (setWord v i d).extractLsb' (32 * i.val) 32 = d ∧
    ∀ j : Fin 8, j ≠ i → (setWord v i d).extractLsb' (32 * j.val) 32 = v.extractLsb' (32 * j.val) 32 :=
  ⟨(getWord_setWord v i i d).trans (if_pos rfl), fun j hj => (getWord_setWord v i j d).trans (if_neg hj)⟩

/-- Settles O17, each register by its own offset of the map. -/
theorem dataWordWrite : Obligations.DataWordWrite := by
  intro s i d rest hbusy
  obtain ⟨hdinl, hdinh, hk, -⟩ := portWord_wide i
  obtain ⟨wdinl, wdinh, wk⟩ := writePort_data (s := { s with events := rest }) hbusy i d
  exact ⟨fun he => ⟨_, setWord_replaces _ i d, step_busWrite_eq he hdinl wdinl⟩,
    fun he => ⟨_, setWord_replaces _ i d, step_busWrite_eq he hdinh wdinh⟩,
    fun he => ⟨_, setWord_replaces _ i d, step_busWrite_eq he hk wk⟩⟩

/-- No write to the port but one to `CTRL` clears `OVR` (R67, R69). -/
theorem writePort_keeps_ovr {s : State} {w : PortWord} (d : Word) (hovr : s.ovr = true)
    (hctrl : w = .ctrl → d.getLsbD 9 = false ∧ d.getLsbD 31 = false) : (writePort s w d).ovr = true := by
  cases w with
  | cmd =>
    rw [writePort, writeCmd]
    split
    · rfl
    · exact hovr
  | ctrl =>
    obtain ⟨h9, h31⟩ := hctrl rfl
    rw [writePort, writeCtrl_eq s d h31]
    simp only [h9, hovr, Bool.false_eq_true, if_false]
  | dinl i | dinh i | k i =>
    rw [writePort]
    split
    · rfl
    · exact hovr
  | status | errcmd | dout _ | reserved => exact hovr

/-- Settles O16: by the word written, and by the kinds of step for `OVR` afterwards. -/
theorem discardedWritesSetOvr : Obligations.DiscardedWritesSetOvr := by
  refine ⟨fun s addr d rest he h => ?_, fun s t hovr h hreset hctrl => ?_⟩
  · obtain ⟨hbusy, rfl | ⟨hal, hdata⟩⟩ | ⟨-, herr, rfl⟩ := h
    · exact step_busWrite_eq he rfl (writePort_cmd_lost (s := { s with events := rest }) (.inl hbusy) d)
    · obtain ⟨i, hw⟩ := portWord_data hal hdata
      obtain ⟨ldinl, ldinh, lk⟩ := writePort_data_lost (s := { s with events := rest }) hbusy i d
      obtain hw | hw | hw := hw
      · exact step_busWrite_eq he hw ldinl
      · exact step_busWrite_eq he hw ldinh
      · exact step_busWrite_eq he hw lk
    · exact step_busWrite_eq he rfl (writePort_cmd_lost (s := { s with events := rest }) (.inr herr) d)
  · obtain ⟨-, hc⟩ | ⟨rest, -, hc⟩ | ⟨a, w, rest, -, rfl⟩ | ⟨a, d, w, rest, he, hw, rfl⟩ | ⟨rest, he, -⟩ := step_cases h
    · exact (complete_ovr hc).trans hovr
    · exact (complete_ovr hc).trans hovr
    · exact hovr
    · refine writePort_keeps_ovr d hovr ?_
      rintro rfl
      exact hctrl d rest (portWord_eq_ctrl hw ▸ he)
    · exact absurd he (hreset rest)

/-! ### From accept to completion -/

/-- As a command, so the core's turn (R72). -/
theorem complete_withHostOf {s t : State} (h : complete s = .next t) (v : State) :
    complete (s.withHostOf v) = .next (t.withHostOf v) := by
  obtain ⟨hidle, rfl⟩ | ⟨hbusy, hillegal, rfl⟩ | ⟨hbusy, i, hi, hexec⟩ := complete_cases h
  · exact if_neg (by simp [State.withHostOf, hidle])
  · exact complete_illegal (s := s.withHostOf v) hbusy hillegal
  · exact (complete_legal (s := s.withHostOf v) hbusy hi).trans (exec_withHostOf hexec v)

/-- A busy core is in no error and `DONE` is 0 (R35 (g), (h)), so that a write changes the host's side only: `ERRCLR`
and `DONECLR` find nothing to clear, and a data word or a command is discarded (R67, R69). -/
theorem writePort_of_busy {s : State} (hi : s.Inv) (hbusy : s.busy = true) {w : PortWord} {d : Word}
    (h : ¬ (w = .ctrl ∧ d.getLsbD 31 = true)) : writePort s w d = s.withHostOf (writePort s w d) := by
  cases w with
  | cmd => rw [writePort_cmd_lost (.inl hbusy)]; rfl
  | ctrl =>
    have h31 : d.getLsbD 31 = false := Bool.eq_false_iff.2 fun h' => h ⟨rfl, h'⟩
    obtain ⟨herr, hdone⟩ := hi.busyIsClean hbusy
    obtain ⟨hcode, hcmd⟩ := hi.noErrorNoRecord herr
    rw [writePort, writeCtrl_eq s d h31]
    simp only [State.withHostOf, herr, hdone, hcode, hcmd, ite_self]
  | dinl i | dinh i | k i => rw [writePort, if_pos hbusy]; rfl
  | status | errcmd | dout _ | reserved => rfl

theorem portWord_of_inWindow {addr : Nat} (h : inWindow addr = true) : ∃ w, portWord addr = some w := by
  obtain ⟨hal, hwin⟩ : addr % 4 = 0 ∧ addr < 0x400 := by simpa [inWindow] using h
  exact portWord_isSome hal hwin

/-- A plain write meets a word of the map and is no soft reset (R69). -/
theorem portWord_of_plainWrite {addr : Nat} {d : Word} (h : (Event.busWrite addr d).isPlainAccess = true) :
    ∃ w, portWord addr = some w ∧ ¬ (w = .ctrl ∧ d.getLsbD 31 = true) := by
  obtain ⟨hwin, hreset⟩ : inWindow addr = true ∧ (addr == 0x008 && d.getLsbD 31) = false := by
    simpa only [Event.isPlainAccess, Bool.and_eq_true, Bool.not_eq_true'] using h
  obtain ⟨w, hw⟩ := portWord_of_inWindow hwin
  refine ⟨w, hw, ?_⟩
  rintro ⟨rfl, h31⟩
  rw [portWord_eq_ctrl hw, h31] at hreset
  exact absurd hreset (by decide)

/-- A host access to a busy core, soft reset apart, is a step that changes the host's side only (R71, R72). -/
theorem step_plainAccess_of_busy {s : State} {e : Event} {rest : List Event} (hi : s.Inv) (hbusy : s.busy = true)
    (he : s.events = e :: rest) (hplain : e.isPlainAccess = true) :
    ∃ v, step s = .next (s.withHostOf v) ∧ v.events = rest := by
  cases e with
  | busRead addr =>
    obtain ⟨w, hw⟩ := portWord_of_inWindow hplain
    exact ⟨{ s with events := rest, readLog := readPort s w :: s.readLog }, step_busRead he hw, rfl⟩
  | busWrite addr d =>
    obtain ⟨w, hw, hnot⟩ := portWord_of_plainWrite hplain
    obtain ⟨-, -, -, -, -, -, -, hevents, -⟩ := writePort_frame { s with events := rest } w d hnot
    exact ⟨_, step_busWrite_eq he hw (writePort_of_busy (hi.world rest s.readLog) hbusy hnot), hevents⟩
  | reset | complete => cases hplain

/-- A run of a busy core over host accesses, soft reset apart, changes the host's side only. -/
theorem run_plainAccesses_of_busy (n : Nat) (rest : List Event) :
    ∀ (evs : List Event) (s : State), s.Inv → s.busy = true → s.events = evs ++ rest →
      (∀ e ∈ evs, e.isPlainAccess = true) →
      ∃ v, Host.Core.run core (evs.length + n) s = Host.Core.run core n (s.withHostOf v) ∧ v.events = rest
  | [], s, _, _, he, _ => ⟨s, by rw [List.length_nil, Nat.zero_add]; rfl, he⟩
  | e :: evs, s, hi, hbusy, he, hplain => by
    obtain ⟨hhead, htail⟩ := List.forall_mem_cons.1 hplain
    obtain ⟨u, hstep, hu⟩ := step_plainAccess_of_busy hi hbusy he hhead
    obtain ⟨v, hrun, hv⟩ := run_plainAccesses_of_busy n rest evs (s.withHostOf u)
      (stepKeepsInvariants s _ hi hstep) hbusy hu htail
    refine ⟨v, ?_, hv⟩
    have hcore : core.step s = .next (s.withHostOf u) := hstep
    rw [List.length_cons, Nat.add_right_comm]
    rw [State.withHostOf_trans] at hrun
    simpa only [Host.Core.run, hcore] using hrun

theorem sameResult_withHostOf (s v : State) : SameResult (s.withHostOf v) s :=
  ⟨rfl, rfl, rfl, rfl, rfl, rfl, rfl, rfl, rfl, rfl, rfl, rfl, rfl⟩

/-- Settles O22: the accesses change the host's side only, and the core's turn does not see it. -/
theorem operandsAreThoseAtAccept : Obligations.OperandsAreThoseAtAccept := by
  intro s evs hi hbusy he hplain
  obtain ⟨v, hrun, hv⟩ := run_plainAccesses_of_busy 1 [.complete] evs s hi hbusy he hplain
  obtain ⟨t, ht, htbusy, htdone⟩ := complete_of_busy (s := { s with events := [] }) hbusy
  refine ⟨t, t.withHostOf { v with events := [] }, (step_noEvent rfl).trans ht, ?_, sameResult_withHostOf t _, htbusy,
    htdone⟩
  have hstep : core.step (s.withHostOf v) = .next (t.withHostOf { v with events := [] }) :=
    (step_complete (s := s.withHostOf v) hv).trans (complete_withHostOf ht { v with events := [] })
  rw [hrun]
  simp only [Host.Core.run, hstep]

end Sys2Proof.Machine
end

section
/-! # The encoding family: the fields of a command word

SUPPORT. The fields of the word the encoder writes (R91), what each format letter accepts (R92, R94), and from these
that `decode` and `encode` are inverse to each other; the table of match and mask (R95) read field by field, and that
the decoder refuses exactly the words that match no row (R96). -/

namespace Sys2Proof.Laws.EncodedWord

theorem statement (i : Instr) : Statement i := by
  cases i
  exacts [nop, mset, cset _ _, kldn, fcons _ _, fget _, fadd _ _ _, fsub _ _ _, fmul _ _ _, fpow _ _ _, finv _ _,
    fdiv _ _ _, feq _ _, fred _, pcons _ _ _, pinf _ _, pldg _, pgetx _ _, pgety _ _, padd _ _ _, pdbl _ _, pmul _ _,
    peq _ _, ptest _]

end Sys2Proof.Laws.EncodedWord

namespace Sys2Proof.Machine

/-! ### The fields of a word -/

theorem wordOf_toNat {op rd rs1 rs2 m : Nat} (hop : op < 256) (hrd : rd < 16) (hrs1 : rs1 < 16) (hrs2 : rs2 < 16)
    (hm : m < 2) :
    (wordOf op rd rs1 rs2 m).toNat = op * 2 ^ 24 + rd * 2 ^ 20 + rs1 * 2 ^ 16 + rs2 * 2 ^ 12 + m := by
  rw [wordOf, BitVec.toNat_ofNat, Nat.mod_eq_of_lt]
  omega

/-- The six fields as numbers (R91). -/
theorem eq_fieldsOf_iff {c : CmdFields} {w : Word} :
    c = fieldsOf w ↔ c.op.toNat = w.toNat / 2 ^ 24 % 2 ^ 8 ∧ c.rd.toNat = w.toNat / 2 ^ 20 % 2 ^ 4 ∧
      c.rs1.toNat = w.toNat / 2 ^ 16 % 2 ^ 4 ∧ c.rs2.toNat = w.toNat / 2 ^ 12 % 2 ^ 4 ∧
      c.z.toNat = w.toNat / 2 ^ 1 % 2 ^ 11 ∧ c.m.toNat = w.toNat / 2 ^ 0 % 2 ^ 1 := by
  obtain ⟨op, rd, rs1, rs2, z, m⟩ := c
  simp only [fieldsOf, CmdFields.mk.injEq, ← BitVec.toNat_inj, BitVec.extractLsb'_toNat, Nat.shiftRight_eq_div_pow]

theorem eq_fieldsOf_wordOf_iff {c : CmdFields} {op rd rs1 rs2 m : Nat} (hop : op < 256) (hrd : rd < 16)
    (hrs1 : rs1 < 16) (hrs2 : rs2 < 16) (hm : m < 2) :
    c = fieldsOf (wordOf op rd rs1 rs2 m) ↔ c.op.toNat = op ∧ c.rd.toNat = rd ∧ c.rs1.toNat = rs1 ∧
      c.rs2.toNat = rs2 ∧ c.z.toNat = 0 ∧ c.m.toNat = m := by
  rw [eq_fieldsOf_iff, wordOf_toNat hop hrd hrs1 hrs2 hm]
  refine and_congr ?_ (and_congr ?_ (and_congr ?_ (and_congr ?_ (and_congr ?_ ?_)))) <;> omega

/-- The fields cover the whole word (R91). -/
theorem fieldsOf_injective : Function.Injective fieldsOf := by
  intro v w h
  obtain ⟨hop, hrd, hrs1, hrs2, hz, hm⟩ := eq_fieldsOf_iff.1 h
  simp only [fieldsOf, BitVec.extractLsb'_toNat, Nat.shiftRight_eq_div_pow] at hop hrd hrs1 hrs2 hz hm
  apply BitVec.eq_of_toNat_eq
  omega

/-! ### The format letters and the modifier -/

theorem fReg_eq_some_iff {n : BitVec 4} {a : FIdx} : fReg n = some a ↔ n.toNat = a := by
  revert n a; decide

theorem pReg_eq_some_iff {n : BitVec 4} {a : PIdx} : pReg n = some a ↔ n.toNat = a := by
  revert n a; decide

theorem unused_eq_some_iff {k : Nat} {n : BitVec k} {u : Unit} : unused n = some u ↔ n.toNat = 0 := by
  simp [unused, ← BitVec.toNat_inj]

theorem selOf_eq_iff {m : BitVec 1} {sel : Slot} : selOf m = sel ↔ m.toNat = selBit sel := by
  cases sel <;> (revert m; decide)

theorem negOf_eq_iff {m : BitVec 1} {neg : Bool} : negOf m = neg ↔ m.toNat = neg.toNat := by
  revert m neg; decide

theorem fIdx_lt (a : FIdx) : (a : Nat) < 16 := a.isLt.trans (by decide)

theorem pIdx_lt (a : PIdx) : (a : Nat) < 16 := a.isLt.trans (by decide)

theorem selBit_lt (sel : Slot) : selBit sel < 2 := by cases sel <;> decide

/-! ### Decoding and encoding are inverse -/

/-- The decoder reads each field of an encoded command back as the operand it holds. -/
theorem decodeFields_of_encode {c : CmdFields} {i : Instr} (h : c = fieldsOf (encode i)) :
    decodeFields c = some i := by
  cases i <;>
  · simp only [encode, eq_fieldsOf_wordOf_iff, fIdx_lt, pIdx_lt, selBit_lt, Bool.toNat_lt, Nat.reduceLT] at h
    obtain ⟨hop, hrd, hrs1, hrs2, hz, hm⟩ := h
    simp [decodeFields, hop, Option.bind_eq_some_iff, unused_eq_some_iff, fReg_eq_some_iff, pReg_eq_some_iff,
      selOf_eq_iff, negOf_eq_iff, hrd, hrs1, hrs2, hz, hm, Fin.val_inj]

/-- The opcode names the constructor, and then every field is the one the encoder writes. -/
theorem eq_encode_of_decodeFields {c : CmdFields} {i : Instr} (h : decodeFields c = some i) :
    c = fieldsOf (encode i) := by
  simp only [decodeFields, Option.bind_eq_bind, Option.bind_eq_some_iff, unused_eq_some_iff, exists_const] at h
  obtain ⟨hz, h⟩ := h
  generalize hop : c.op.toNat = op at h
  split at h
  case h_25 => cases h
  all_goals
    simp only [Option.bind_eq_some_iff, unused_eq_some_iff, fReg_eq_some_iff, pReg_eq_some_iff, Option.some.injEq] at h
    obtain ⟨rd, hrd, rs1, hrs1, rs2, hrs2, h⟩ := h
  -- the formats with a modifier: `FCONS` and `PINF`, then `FPOW`
  case h_5 | h_16 =>
    subst h
    simp only [encode, eq_fieldsOf_wordOf_iff, fIdx_lt, pIdx_lt, selBit_lt, Nat.reduceLT]
    exact ⟨hop, hrd, hrs1, hrs2, hz, selOf_eq_iff.1 rfl⟩
  case h_10 =>
    subst h
    simp only [encode, eq_fieldsOf_wordOf_iff, fIdx_lt, Bool.toNat_lt, Nat.reduceLT]
    exact ⟨hop, hrd, hrs1, hrs2, hz, negOf_eq_iff.1 rfl⟩
  all_goals
    obtain ⟨-, hm, rfl⟩ := h
    simp only [encode, eq_fieldsOf_wordOf_iff, fIdx_lt, pIdx_lt, Nat.reduceLT]
    exact ⟨hop, hrd, hrs1, hrs2, hz, hm⟩

theorem decode_eq_some_iff {w : Word} {i : Instr} : decode w = some i ↔ w = encode i :=
  ⟨fun h => fieldsOf_injective (eq_encode_of_decodeFields h), fun h => decodeFields_of_encode (congrArg fieldsOf h)⟩

/-- Settles O1: every operand stands in its field, and the opcodes differ. -/
theorem decodeEncodeRoundTrip : Obligations.DecodeEncodeRoundTrip := fun _ => decode_eq_some_iff.2 rfl

/-- Settles O2: each of the six fields is checked or is an operand, and the fields make up the word. -/
theorem encodeDecodeRoundTrip : Obligations.EncodeDecodeRoundTrip := fun _ _ h => (decode_eq_some_iff.1 h).symm

/-- Settles O4. -/
theorem listedWordsDecode : Obligations.ListedWordsDecode := by
  unfold Obligations.ListedWordsDecode
  decide

/-! ### The table of match and mask -/

theorem and_eq_iff_fields {w mask value : Word} : w &&& mask = value ↔
    (fieldsOf w).op &&& (fieldsOf mask).op = (fieldsOf value).op ∧
    (fieldsOf w).rd &&& (fieldsOf mask).rd = (fieldsOf value).rd ∧
    (fieldsOf w).rs1 &&& (fieldsOf mask).rs1 = (fieldsOf value).rs1 ∧
    (fieldsOf w).rs2 &&& (fieldsOf mask).rs2 = (fieldsOf value).rs2 ∧
    (fieldsOf w).z &&& (fieldsOf mask).z = (fieldsOf value).z ∧
    (fieldsOf w).m &&& (fieldsOf mask).m = (fieldsOf value).m := by
  rw [← fieldsOf_injective.eq_iff]
  simp only [fieldsOf, CmdFields.mk.injEq, BitVec.extractLsb'_and]

/-- The mask of format letter `F`. -/
theorem and_eq_zero_iff_fReg {n : BitVec 4} : n &&& 0x8#4 = 0#4 ↔ (fReg n).isSome := by
  revert n; decide

/-- The mask of format letter `P`. -/
theorem and_eq_zero_iff_pReg {n : BitVec 4} : n &&& 0xC#4 = 0#4 ↔ (pReg n).isSome := by
  revert n; decide

/-- The mask of format letter `-`, of any width. -/
theorem and_allOnes_eq_zero_iff_unused {k : Nat} {n : BitVec k} :
    n &&& BitVec.allOnes k = 0 ↔ (unused n).isSome := by
  simp [unused]

theorem isSome_bind {α β : Type} {x : Option α} {f : α → Option β} (hx : x.isSome) (hf : ∀ a, (f a).isSome) :
    (x >>= f).isSome := by
  obtain ⟨a, rfl⟩ := Option.isSome_iff_exists.1 hx
  exact hf a

theorem decode_isSome_of_row {w : Word} {r : OpcodeRow} (hr : r ∈ opcodeMap) (hw : w &&& r.mask = r.value) :
    (decode w).isSome := by
  obtain ⟨hop, hrd, hrs1, hrs2, hz, hm⟩ := and_eq_iff_fields.1 hw
  rw [decode]
  generalize fieldsOf w = c at *
  have hop8 (k : BitVec 8) : c.op &&& 0xFF#8 = k ↔ c.op = k := by
    rw [show 0xFF#8 = BitVec.allOnes 8 from rfl, BitVec.and_allOnes]
  have h4 (n : BitVec 4) : n &&& 0xF#4 = 0#4 ↔ (unused n).isSome := and_allOnes_eq_zero_iff_unused
  have hz11 : c.z &&& 0x7FF#11 = 0#11 ↔ (unused c.z).isSome := and_allOnes_eq_zero_iff_unused
  have h1 : c.m &&& 0x1#1 = 0#1 ↔ c.m = 0#1 := by
    rw [show 0x1#1 = BitVec.allOnes 1 from rfl, BitVec.and_allOnes]
  fin_cases hr
  all_goals
    simp only [fieldsOf, BitVec.reduceExtractLsb', hop8, h4, hz11, h1, and_eq_zero_iff_fReg, and_eq_zero_iff_pReg]
      at hop hrd hrs1 hrs2 hz hm
    simp only [decodeFields, hop]
    refine isSome_bind hz fun _ => isSome_bind hrd fun _ => isSome_bind hrs1 fun _ => isSome_bind hrs2 fun _ => ?_
    -- either the row's mask leaves `M` free and nothing is checked any more, or `M` is 0
    simp [unused, hm]

/-- A row's mask has all of `OP`, so that the word has the row's opcode. -/
theorem op_of_row {w : Word} {r : OpcodeRow} (hr : r ∈ opcodeMap) (hw : w &&& r.mask = r.value) :
    (fieldsOf r.value).op = (fieldsOf w).op := by
  obtain ⟨hop, -⟩ := and_eq_iff_fields.1 hw
  have hmask : ∀ r ∈ opcodeMap, (fieldsOf r.mask).op = BitVec.allOnes 8 := by decide
  rw [← hop, hmask r hr, BitVec.and_allOnes]

theorem mnemonic_of_op (i : Instr) {r : OpcodeRow} (hr : r ∈ opcodeMap)
    (h : (fieldsOf r.value).op = (fieldsOf (encode i)).op) : r.mnemonic = i.mnemonic := by
  generalize hc : fieldsOf (encode i) = c at h
  replace hc := hc.symm
  revert r
  cases i <;>
  · simp only [encode, eq_fieldsOf_wordOf_iff, fIdx_lt, pIdx_lt, selBit_lt, Bool.toNat_lt, Nat.reduceLT] at hc
    obtain ⟨hop, -⟩ := hc
    simp only [← BitVec.toNat_inj, hop, Instr.mnemonic]
    decide

theorem row_eq_of_mnemonic : ∀ r ∈ opcodeMap, ∀ q ∈ opcodeMap, r.mnemonic = q.mnemonic → r = q := by decide

theorem legal_encode (i : Instr) : legal (encode i) = true := (Laws.EncodedWord.statement i).1

theorem exists_row_of_encode (i : Instr) :
    ∃ r ∈ opcodeMap, encode i &&& r.mask = r.value ∧ r.mnemonic = i.mnemonic := by
  obtain ⟨r, hr, hmatch⟩ := List.any_eq_true.1 (legal_encode i)
  have hw : encode i &&& r.mask = r.value := beq_iff_eq.1 hmatch
  exact ⟨r, hr, hw, mnemonic_of_op i hr (op_of_row hr hw)⟩

theorem encode_matches_iff (i : Instr) {r : OpcodeRow} (hr : r ∈ opcodeMap) :
    encode i &&& r.mask = r.value ↔ r.mnemonic = i.mnemonic := by
  refine ⟨fun hw => mnemonic_of_op i hr (op_of_row hr hw), fun hname => ?_⟩
  obtain ⟨q, hq, hw, hqname⟩ := exists_row_of_encode i
  rwa [row_eq_of_mnemonic r hr q hq (hname.trans hqname.symm)]

theorem decode_eq_none_iff {w : Word} : decode w = none ↔ ∀ r ∈ opcodeMap, w &&& r.mask ≠ r.value := by
  constructor
  · intro hd r hr hw
    simpa [hd] using decode_isSome_of_row hr hw
  · intro hrows
    refine Option.eq_none_iff_forall_ne_some.2 fun i hi => ?_
    obtain rfl := decode_eq_some_iff.1 hi
    obtain ⟨r, hr, hw, -⟩ := exists_row_of_encode i
    exact hrows r hr hw

/-- Settles O3: a row's fields are the checks of its format, and its opcode is its own. -/
theorem decodeAgreesWithOpcodeMap : Obligations.DecodeAgreesWithOpcodeMap := by
  intro w
  cases hd : decode w with
  | none => exact decode_eq_none_iff.1 hd
  | some i =>
    obtain rfl := decode_eq_some_iff.1 hd
    exact fun r hr => encode_matches_iff i hr

/-! ### The core's turn -/

theorem complete_idle {s : State} (hidle : s.busy = false) : complete s = .next s := by
  simp [complete, hidle]

/-- Settles O7: no row means no command, and then the core's turn is the error entry. -/
theorem illegalWordRaises : Obligations.IllegalWordRaises := fun _ hbusy he hrows =>
  (step_noEvent he).trans (complete_illegal hbusy (decode_eq_none_iff.2 hrows))

/-- Settles O5: with no event pending or the core's turn first, a step is the core's turn. -/
theorem stepExecutesLatchedCommand : Obligations.StepExecutesLatchedCommand := fun _ =>
  ⟨fun _ hbusy hi =>
    ⟨fun he => (step_noEvent he).trans (complete_legal hbusy hi),
      fun _ he => (step_complete he).trans (complete_legal hbusy hi)⟩,
    fun hidle =>
      ⟨fun he => (step_noEvent he).trans (complete_idle hidle),
        fun _ he => (step_complete he).trans (complete_idle hidle)⟩⟩

end Sys2Proof.Machine
end

section
/-! # The configuration and system family: completion, precise errors, `NOP`, `MSET` and `CSET`

SUPPORT. What the common end of a command leaves in the error record (R120, R263), and the effect of each of the three
commands of 40_config_and_system.md (R121 to R123). -/

namespace Sys2Proof.Machine

open Sys2Proof.Spec

/-! ### Completion and errors -/

/-- No command writes the error record unless it raises (R120). -/
theorem Commits.error_frame {i : Instr} {s u : State} (h : Commits i s u) :
    u.err = s.err ∧ u.errCode = s.errCode ∧ u.errCmd = s.errCmd := by
  cases h with
  | nothing | modulus | curve | scalar | out | field | point | equalF | equalP | infinite => exact ⟨rfl, rfl, rfl⟩

/-- Code 8 is the decoder's alone (R260, R261). -/
theorem ErrorKind.code_le_seven {e : ErrorKind} (he : e ≠ .illegalCommand) : e.code.toNat ≤ 7 := by
  cases e with
  | illegalCommand => exact absurd rfl he
  | range | curveMembership | fieldMismatch | curveMismatch | divisionByZero | absentValue | modulus => decide

/-- Settles O8: a command raises one of its own errors, or completes with the error record as it was. -/
theorem everyCommandCompletes : Obligations.EveryCommandCompletes := by
  intro i s
  obtain ⟨t, ht⟩ := exec_next i s
  refine ⟨t, ht, ?_⟩
  obtain ⟨e, he, rfl⟩ | ⟨u, hu, rfl⟩ := exec_cases ht
  · exact ⟨rfl, rfl, .inr ⟨e.code, e.code_range.1, ErrorKind.code_le_seven he, rfl⟩⟩
  · exact ⟨rfl, rfl, .inl hu.error_frame⟩

/-- Where the core's turn leaves an error that was not there, it did nothing but raise it (R263). -/
theorem complete_raises {s t : State} (hs : s.err = false) (ht : t.err = true) (h : complete s = .next t) :
    ∃ e : ErrorKind, t = s.raise e := by
  obtain ⟨-, rfl⟩ | ⟨-, -, rfl⟩ | ⟨-, i, -, hexec⟩ := complete_cases h
  · rw [hs] at ht; cases ht
  · exact ⟨_, rfl⟩
  · obtain ⟨e, -, rfl⟩ | ⟨u, hu, rfl⟩ := exec_cases hexec
    · exact ⟨e, rfl⟩
    · have hkept : u.completed.err = false := hu.error_frame.1.trans hs
      rw [hkept] at ht; cases ht

/-- Settles O9: with no event pending the step is the core's turn. -/
theorem errorsArePrecise : Obligations.ErrorsArePrecise := by
  intro s t _ hs hevents h ht
  obtain ⟨e, rfl⟩ := complete_raises hs ht (step_noEvent hevents ▸ h)
  obtain ⟨hone, height⟩ := e.code_range
  exact ⟨e.code, hone, height, rfl⟩

/-! ### The commands -/

/-- Settles O28. -/
theorem nopOnlyCompletes : Obligations.NopOnlyCompletes := ⟨rfl, fun _ => rfl⟩

theorem exec_mset {s : State} (h : 2 ≤ s.dinl.toNat) : exec .mset s = .next (s.setModulus s.dinl).completed := by
  simp [exec, execMset, h]

theorem exec_mset_small {s : State} (h : s.dinl.toNat < 2) : exec .mset s = .next (s.raise .modulus) := by
  simp [exec, execMset, Nat.not_le.2 h]

/-- A field register that holds a value keeps it exactly when that is of slot 1 (R122). -/
theorem getElem_keepSecpF_of_some {s : State} {i : FIdx} {r : FieldRec} (h : s.F[i] = some r) :
    (s.F.map keepSecpF)[i] = if r.m = .prog then none else some r := by
  rw [getElem_keepSecpF, h, keepSecpF]

theorem getElem_keepSecpF_of_none {s : State} {i : FIdx} (h : s.F[i] = none) : (s.F.map keepSecpF)[i] = none := by
  rw [getElem_keepSecpF, h, keepSecpF]

/-- A point register that holds a value keeps it exactly when that is of slot 1 (R122, R123). -/
theorem getElem_keepSecpP_of_some {s : State} {j : PIdx} {r : PointRec} (h : s.P[j] = some r) :
    (s.P.map keepSecpP)[j] = if r.c = .prog then none else some r := by
  rw [getElem_keepSecpP, h, keepSecpP]

theorem getElem_keepSecpP_of_none {s : State} {j : PIdx} (h : s.P[j] = none) : (s.P.map keepSecpP)[j] = none := by
  rw [getElem_keepSecpP, h, keepSecpP]

/-- Settles O29. -/
theorem msetSetsModulus : Obligations.MsetSetsModulus :=
  ⟨rfl, fun s =>
    ⟨fun h => ⟨s.F.map keepSecpF, s.P.map keepSecpP, exec_mset h, fun _ _ => getElem_keepSecpF_of_some,
      fun _ => getElem_keepSecpF_of_none, fun _ _ => getElem_keepSecpP_of_some, fun _ => getElem_keepSecpP_of_none⟩,
    exec_mset_small⟩⟩

/-- `CSET` with both sources valid and a modulus set: what is left is the test of the primes (R123). -/
theorem exec_cset_of_valid {a b : FIdx} {s : State} {A B : FieldRec} {p : Value} (hA : s.F[a] = some A)
    (hB : s.F[b] = some B) (hp : s.pmod = some p) :
    exec (.cset a b) s =
      if primeOf s A.m = some p.toNat ∧ primeOf s B.m = some p.toNat then .next (s.setCurve A.num B.num).completed
      else .next (s.raise .fieldMismatch) := by
  simp only [exec, execCset, needF_some hA, needF_some hB, hp, orRaise_some, ok_bind]
  split
  next h => simp [h]
  next h => simp [h]

/-- Every absent operand of `CSET` raises the same error, whichever is found first (R123). -/
theorem exec_cset_absent {a b : FIdx} {s : State} (h : s.F[a] = none ∨ s.F[b] = none ∨ s.pmod = none) :
    exec (.cset a b) s = .next (s.raise .absentValue) := by
  simp only [exec, execCset]
  cases hA : s.F[a] with
  | none => rw [needF_none hA, error_bind, finish_error]
  | some A =>
    rw [needF_some hA, ok_bind]
    cases hB : s.F[b] with
    | none => rw [needF_none hB, error_bind, finish_error]
    | some B =>
      have hp : s.pmod = none := by simpa [hA, hB] using h
      rw [needF_some hB, ok_bind, hp, orRaise_none, error_bind, finish_error]

/-- Settles O30. -/
theorem csetSetsCurve : Obligations.CsetSetsCurve := by
  refine fun a b s => ⟨rfl, fun A B p hA hB hp hpA hpB => ⟨s.P.map keepSecpP, ?_, fun _ _ => getElem_keepSecpP_of_some,
    fun _ => getElem_keepSecpP_of_none⟩, exec_cset_absent, fun A B p hA hB hp hne => ?_⟩
  · exact (exec_cset_of_valid hA hB hp).trans (if_pos ⟨hpA, hpB⟩)
  · exact (exec_cset_of_valid hA hB hp).trans (if_neg (not_and_or.2 hne))

end Sys2Proof.Machine
end

section
/-! # The field family: absent sources and the field commands

SUPPORT. Operand fetch of a command with one or two sources (R141, R181), what the operands and checks shared by the
binary commands give (R144), the effect of each command of 41_field.md (R142 to R152), and the inverse laws of a prime
modulus (R150). -/

namespace Sys2Proof.Machine

open Sys2Proof.Spec

/-! ### Absent sources -/

/-- Where either of two operands is absent the same error is raised, whichever is fetched first (R141, R181). -/
theorem orRaise_two_absent {α β γ : Type} {o : Option α} {o' : Option β} (e : ErrorKind) (h : o = none ∨ o' = none)
    (f : α → β → Except ErrorKind γ) : (orRaise o e >>= fun a => orRaise o' e >>= f a) = .error e := by
  cases o with
  | none => rfl
  | some a =>
    obtain rfl : o' = none := by simpa using h
    rfl

theorem needSameField_absent {s : State} {a b : FIdx} (h : s.F[a] = none ∨ s.F[b] = none) :
    needSameField s a b = .error .absentValue :=
  orRaise_two_absent .absentValue h _

/-- A pseudocode that fetches an absent operand first. -/
theorem finish_absent {α : Type} {s : State} {o : Option α} (h : o = none) (f : α → Except ErrorKind State) :
    finish s (orRaise o .absentValue >>= f) = .next (s.errorEntry 6) := by
  rw [h]; rfl

/-- A pseudocode that fetches two operands first, one of them absent. -/
theorem finish_absent_two {α β : Type} {s : State} {o : Option α} {o' : Option β} (h : o = none ∨ o' = none)
    (f : α → β → Except ErrorKind State) :
    finish s (orRaise o .absentValue >>= fun a => orRaise o' .absentValue >>= f a) = .next (s.errorEntry 6) := by
  rw [orRaise_two_absent _ h]; rfl

/-- A pseudocode that begins with the operands and checks of the binary commands, one of the operands absent. -/
theorem finish_absent_sameField {s : State} {a b : FIdx} (h : s.F[a] = none ∨ s.F[b] = none)
    (f : FieldRec × FieldRec × Nat → Except ErrorKind State) :
    finish s (needSameField s a b >>= f) = .next (s.errorEntry 6) := by
  rw [needSameField_absent h]; rfl

/-- Settles O15: every command fetches all its sources before any other check. -/
theorem absentSourceRaises : Obligations.AbsentSourceRaises := by
  intro i s h
  cases i with
  | nop | mset | kldn | fcons | fred | pinf | pldg => simp [sourcesF, sourcesP] at h
  | fget | fpow | finv | pgetx | pgety | pdbl | pmul | ptest =>
    exact finish_absent (by simpa [sourcesF, sourcesP] using h) _
  | cset | feq | pcons | padd | peq => exact finish_absent_two (by simpa [sourcesF, sourcesP] using h) _
  | fadd | fsub | fmul | fdiv => exact finish_absent_sameField (by simpa [sourcesF, sourcesP] using h) _

/-! ### Writing a result -/

/-- The word of a command is the encoder's (R91). -/
theorem wordOf_eq_word (op rd rs1 rs2 m : Nat) : wordOf op rd rs1 rs2 m = word op rd rs1 rs2 m := rfl

theorem require_decide (c : Prop) [Decidable c] (e : ErrorKind) :
    require (decide c) e = if c then .ok () else .error e := by
  by_cases h : c <;> simp [h]

theorem needPrime_some {s : State} {m : Slot} {p : Nat} (h : primeOf s m = some p) : needPrime s m = .ok p := by
  rw [needPrime, h, orRaise_some]

/-- A number below its slot's prime is written to a field register exactly (R21). -/
theorem finish_writeF {s : State} {m : Slot} {n p : Nat} (d : FIdx) (hp : primeOf s m = some p) (hn : n < p) :
    ∃ r : Value, r.toNat = n ∧ finish s (.ok (s.writeF d m n)) = .next (wroteF s d { m, num := r }) :=
  ⟨BitVec.ofNat 256 n, toNat_ofNat_of_lt hn (primeOf_lt hp).le, rfl⟩

/-! ### `FCONS` and `FGET` -/

/-- `FCONS` into a slot with a prime: what is left is the range of the number (R142). -/
theorem exec_fcons_of_prime {s : State} {sel : Slot} {p : Nat} (d : FIdx) (hp : primeOf s sel = some p) :
    exec (.fcons d sel) s =
      if s.dinl.toNat < p then .next (wroteF s d { m := sel, num := s.dinl }) else .next (s.raise .range) := by
  have hwrote : (s.writeF d sel s.dinl.toNat).completed = wroteF s d { m := sel, num := s.dinl } := by
    simp [State.completed, State.writeF, wroteF]
  simp only [exec, execFcons, needPrime_some hp, ok_bind, require_decide]
  split
  next => rw [ok_bind, pure_eq_ok, finish_ok, hwrote]
  next => rw [error_bind, finish_error]

/-- Settles O34. -/
theorem fconsConstructs : Obligations.FconsConstructs := by
  intro d sel s
  refine ⟨by cases sel <;> rfl, fun p hp hlt => ?_, fun hsel hpmod => ?_, fun p hp hle => ?_⟩
  · exact (exec_fcons_of_prime d hp).trans (if_pos hlt)
  · exact finish_absent (o := primeOf s sel) (by rw [hsel, primeOf, hpmod, Option.map_none]) _
  · exact (exec_fcons_of_prime d hp).trans (if_neg hle.not_gt)

/-- Settles O35. -/
theorem fgetReadsTheNumber : Obligations.FgetReadsTheNumber := by
  refine fun a s => ⟨wordOf_eq_word _ _ _ _ _, fun A hA => ?_, fun h => finish_absent h _⟩
  simp only [exec, execFget, needF_some hA, ok_bind, pure_eq_ok, finish_ok]
  rfl

/-! ### `FADD`, `FSUB` and `FMUL` -/

/-- Two valid operands of slots with a prime: what is left is whether the primes agree (R144). -/
theorem needSameField_of_valid {s : State} {a b : FIdx} {A B : FieldRec} {p q : Nat} (hA : s.F[a] = some A)
    (hB : s.F[b] = some B) (hp : primeOf s A.m = some p) (hq : primeOf s B.m = some q) :
    needSameField s a b = if p = q then .ok (A, B, p) else .error .fieldMismatch := by
  simp only [needSameField, needF_some hA, needF_some hB, needPrime_some hp, needPrime_some hq, ok_bind,
    require_decide]
  split <;> rfl

/-- A command that writes `f A B p` after the shared checks follows the shared rule for `g`, where `f` is `g` modulo
the prime (R144 to R146). -/
theorem binaryFieldRule_of_exec {cmd : FIdx → FIdx → FIdx → Instr} {op : Nat} {f : Nat → Nat → Nat → Nat}
    {g : Int → Int → Int} (hword : ∀ d a b, encode (cmd d a b) = word op d a b 0)
    (hexec : ∀ d a b s, exec (cmd d a b) s =
      finish s (needSameField s a b >>= fun (A, B, p) => .ok (s.writeF d A.m (f A.num.toNat B.num.toNat p))))
    (hlt : ∀ x y p, 0 < p → f x y p < p) (hmod : ∀ x y p : Nat, 0 < p → (f x y p : Int) = g x y % p) :
    binaryFieldRule cmd op g := by
  intro d a b s
  rw [hexec]
  refine ⟨hword d a b, fun A B p hA hB hp hq htwo => ?_, fun h => finish_absent_sameField h _,
    fun A B p q hA hB hp hq hne => ?_⟩
  · have hpos : 0 < p := by omega
    obtain ⟨r, hr, hfinish⟩ := finish_writeF d hp (hlt A.num.toNat B.num.toNat p hpos)
    refine ⟨r, ?_, ?_⟩
    · rw [holdsMod, hr, hmod _ _ _ hpos]
    · rw [needSameField_of_valid hA hB hp hq, if_pos rfl]
      exact hfinish
  · rw [needSameField_of_valid hA hB hp hq, if_neg hne]
    rfl

/-- Settles O36. -/
theorem faddWritesTheSum : Obligations.FaddWritesTheSum :=
  binaryFieldRule_of_exec (fun _ _ _ => rfl) (fun _ _ _ _ => rfl) fadd_lt fun x y p _ => by
    rw [fadd]; push_cast; rfl

/-- Settles O37. -/
theorem fsubWritesTheDifference : Obligations.FsubWritesTheDifference :=
  binaryFieldRule_of_exec (fun _ _ _ => rfl) (fun _ _ _ _ => rfl) fsub_lt fun x y p hp => modInt_cast (x - y) p hp

/-- Settles O38. -/
theorem fmulWritesTheProduct : Obligations.FmulWritesTheProduct :=
  binaryFieldRule_of_exec (fun _ _ _ => rfl) (fun _ _ _ _ => rfl) fmul_lt fun x y p _ => by
    rw [fmul]; push_cast; rfl

/-! ### `FPOW`, `FINV` and `FDIV` -/

/-- `FPOW` with a valid source whose slot has a prime (R147). -/
theorem exec_fpow_of_valid {s : State} {a : FIdx} {A : FieldRec} {p : Nat} (d : FIdx) (neg : Bool)
    (hA : s.F[a] = some A) (hp : primeOf s A.m = some p) :
    exec (.fpow d a neg) s =
      finish s (.ok (s.writeF d A.m (fpow A.num.toNat (exponentOf s.K.toNat neg p) p))) := by
  simp only [exec, execFpow, needF_some hA, needPrime_some hp, ok_bind, pure_eq_ok]

/-- `FINV` with a valid source whose slot has a prime: what is left is the zero test (R148). -/
theorem exec_finv_of_valid {s : State} {a : FIdx} {A : FieldRec} {p : Nat} (d : FIdx) (hA : s.F[a] = some A)
    (hp : primeOf s A.m = some p) :
    exec (.finv d a) s =
      if A.num ≠ 0 then finish s (.ok (s.writeF d A.m (finv A.num.toNat p))) else .next (s.raise .divisionByZero) := by
  simp only [exec, execFinv, needF_some hA, needPrime_some hp, ok_bind, require_decide]
  split <;> rfl

/-- `FDIV` with valid sources of one prime: what is left is the zero test of the divisor (R149). -/
theorem exec_fdiv_of_valid {s : State} {a b : FIdx} {A B : FieldRec} {p : Nat} (d : FIdx) (hA : s.F[a] = some A)
    (hB : s.F[b] = some B) (hp : primeOf s A.m = some p) (hq : primeOf s B.m = some p) :
    exec (.fdiv d a b) s =
      if B.num ≠ 0 then finish s (.ok (s.writeF d A.m (fdiv A.num.toNat B.num.toNat p)))
      else .next (s.raise .divisionByZero) := by
  simp only [exec, execFdiv, needSameField_of_valid hA hB hp hq, if_true, ok_bind, require_decide]
  split <;> rfl

/-- `FDIV` checks the primes before the divisor (R149). -/
theorem exec_fdiv_mismatch {s : State} {a b : FIdx} {A B : FieldRec} {p q : Nat} (d : FIdx) (hA : s.F[a] = some A)
    (hB : s.F[b] = some B) (hp : primeOf s A.m = some p) (hq : primeOf s B.m = some q) (hne : p ≠ q) :
    exec (.fdiv d a b) s = .next (s.raise .fieldMismatch) := by
  simp only [exec, execFdiv, needSameField_of_valid hA hB hp hq, if_neg hne, error_bind, finish_error]

/-- The Fermat power lies below the modulus (R140). -/
theorem finv_lt (b p : Nat) (hp : 0 < p) : finv b p < p := fpow_lt b (p - 2) p hp

/-- Settles O39: the exponent is the one the modifier asks for, and `fpow` is the power. -/
theorem fpowWritesThePower : Obligations.FpowWritesThePower := by
  refine fun d a neg s => ⟨by cases neg <;> rfl, fun A p hA hp htwo => ?_, fun h => finish_absent h _⟩
  have hpos : 0 < p := by omega
  obtain ⟨r, hr, hfinish⟩ := finish_writeF d hp (fpow_lt A.num.toNat (exponentOf s.K.toNat neg p) p hpos)
  refine ⟨exponentOf s.K.toNat neg p, r, ?_, ?_, ?_, ?_⟩
  · rintro rfl; rfl
  · rintro rfl; exact exponentOf_neg _ p htwo
  · rw [hr, fpow_eq _ _ _ hpos]
  · rw [exec_fpow_of_valid d neg hA hp, hfinish]

/-- Settles O40. -/
theorem finvWritesTheFermatPower : Obligations.FinvWritesTheFermatPower := by
  refine fun d a s => ⟨rfl, fun A p hA hp htwo hne => ?_, fun h => finish_absent h _, fun A p hA hp hzero => ?_⟩
  · have hpos : 0 < p := by omega
    obtain ⟨r, hr, hfinish⟩ := finish_writeF d hp (finv_lt A.num.toNat p hpos)
    refine ⟨r, ?_, ?_⟩
    · rw [hr, finv_eq _ _ hpos]
    · rw [exec_finv_of_valid d hA hp, if_pos hne, hfinish]
  · exact (exec_finv_of_valid d hA hp).trans (if_neg (not_not.2 hzero))

/-- Settles O41. -/
theorem fdivWritesTheQuotient : Obligations.FdivWritesTheQuotient := by
  refine fun d a b s => ⟨rfl, fun A B p hA hB hp hq htwo hne => ?_, fun h => finish_absent_sameField h _,
    fun A B p q hA hB hp hq => ⟨exec_fdiv_mismatch d hA hB hp hq, ?_⟩⟩
  · have hpos : 0 < p := by omega
    obtain ⟨r, hr, hfinish⟩ := finish_writeF d hp (fdiv_lt A.num.toNat B.num.toNat p hpos)
    refine ⟨r, ?_, ?_⟩
    · rw [hr, fdiv_eq _ _ _ hpos]
    · rw [exec_fdiv_of_valid d hA hB hp hq, if_pos hne, hfinish]
  · rintro rfl hzero
    exact (exec_fdiv_of_valid d hA hB hp hq).trans (if_neg (not_not.2 hzero))

/-! ### `FEQ` -/

/-- Equality of elements is that of the numbers and of the primes (R152). -/
theorem sameElement_iff {s : State} {A B : FieldRec} :
    sameElement s A B = true ↔ A.num = B.num ∧ primeOf s A.m = primeOf s B.m := by
  rw [sameElement, decide_eq_true_iff]

/-- Settles O42. -/
theorem feqComparesNumberAndPrime : Obligations.FeqComparesNumberAndPrime := by
  refine fun a b s => ⟨rfl, fun A B hA hB => ⟨sameElement s A B, sameElement_iff, ?_⟩, fun h => finish_absent_two h _⟩
  simp only [exec, execFeq, needF_some hA, needF_some hB, ok_bind, pure_eq_ok, finish_ok]
  rfl

/-! ### The inverse laws -/

/-- For a prime modulus the quotient times the divisor is the dividend (R150). -/
theorem fdiv_mul_mod {a b p : Nat} (hp : p.Prime) (ha : a < p) (hb : b < p) (hne : b ≠ 0) :
    fdiv a b p * b % p = a := by
  have hcast : (b : ZMod p) ≠ 0 := by
    rw [Ne, ZMod.natCast_eq_zero_iff]
    exact Nat.not_dvd_of_pos_of_lt (Nat.pos_of_ne_zero hne) hb
  have hmul : ((fdiv a b p * b : Nat) : ZMod p) = a := by
    rw [Nat.cast_mul, fdiv_cast_mul a hp hcast]
  rw [ZMod.natCast_eq_natCast_iff'] at hmul
  rw [hmul, Nat.mod_eq_of_lt ha]

/-- The Fermat power is the quotient of 1 (R148, R149). -/
theorem fdiv_one (b : Nat) {p : Nat} (hp : 0 < p) : fdiv 1 b p = finv b p := by
  rw [fdiv_eq _ _ _ hp, finv_eq _ _ hp, one_mul]

/-- For a prime modulus the Fermat power is the inverse (R150). -/
theorem mul_finv_mod {b p : Nat} (hp : p.Prime) (hb : b < p) (hne : b ≠ 0) : b * finv b p % p = 1 := by
  rw [Nat.mul_comm, ← fdiv_one b hp.pos, fdiv_mul_mod hp hp.one_lt hb hne]

/-- Settles O43: `FINV` and `FDIV` write the Fermat power and the quotient by it (O40, O41), which for a prime modulus
are the inverse and the quotient. -/
theorem inverseLaws : Obligations.InverseLaws := by
  intro d a b s A B p hA hB hp hq hprime hAlt hBlt hne
  have hBne : B.num.toNat ≠ 0 := fun h => hne (BitVec.eq_of_toNat_eq h)
  obtain ⟨-, hfinv, -⟩ := finvWritesTheFermatPower d b s
  obtain ⟨-, hfdiv, -⟩ := fdivWritesTheQuotient d a b s
  obtain ⟨r, hr, hinv⟩ := hfinv B p hB hq hprime.two_le hne
  obtain ⟨r', hr', hdiv⟩ := hfdiv A B p hA hB hp hq hprime.two_le hne
  refine ⟨⟨r, hinv, ?_⟩, ⟨r', hdiv, ?_⟩⟩
  · rw [hr, ← finv_eq _ _ hprime.pos, mul_finv_mod hprime hBlt hBne]
  · rw [hr', ← fdiv_eq _ _ _ hprime.pos, fdiv_mul_mod hprime hAlt hBlt hBne]

end Sys2Proof.Machine
end

section
/-! # The point family: construction, coordinates, comparison and the group law

SUPPORT. The effect of each command of 42_point.md (R183 to R190), the group law of R182 case by case, and its laws for
one curve (R191): closure, commutativity, identity and inverse. -/

namespace Sys2Proof.Machine

open Sys2Proof.Spec

/-! ### `PCONS` and `PINF` -/

theorem needCurve_some {s : State} {c : Slot} {cv : Curve} (h : curveOf s c = some cv) : needCurve s c = .ok cv := by
  rw [needCurve, h, orRaise_some]

theorem curveOf_prog_none {s : State} (h : s.curve0 = none) : curveOf s .prog = none := by
  simp only [curveOf, h]

theorem onCurve_iff {x y : Nat} {cv : Curve} :
    onCurve x y cv = true ↔ y * y % cv.p = (x * x * x + cv.a * x + cv.b) % cv.p := by
  rw [onCurve, decide_eq_true_iff]

/-- `PCONS` with valid sources, the slot of `x` having a curve and that of `y` a prime: what is left is whether the
primes agree, then whether the point lies on the curve (R183). -/
theorem exec_pcons_of_curve {s : State} {a b : FIdx} {X Y : FieldRec} {cv : Curve} {q : Nat} (d : PIdx)
    (hX : s.F[a] = some X) (hY : s.F[b] = some Y) (hcv : curveOf s X.m = some cv) (hq : primeOf s Y.m = some q) :
    exec (.pcons d a b) s =
      if cv.p = q then
        if onCurve X.num.toNat Y.num.toNat cv then .next (wroteP s d { c := X.m, pt := .finite X.num Y.num })
        else .next (s.raise .curveMembership)
      else .next (s.raise .fieldMismatch) := by
  simp only [exec, execPcons, needF_some hX, needF_some hY, needCurve_some hcv, needPrime_some hq, ok_bind,
    require_decide]
  split
  next => cases onCurve X.num.toNat Y.num.toNat cv <;> rfl
  next => rfl

/-- `PCONS` for a slot of `x` without a curve (R34, R183). -/
theorem exec_pcons_noCurve {s : State} {a b : FIdx} {X Y : FieldRec} (d : PIdx) (hX : s.F[a] = some X)
    (hY : s.F[b] = some Y) (hcv : curveOf s X.m = none) : exec (.pcons d a b) s = .next (s.raise .absentValue) := by
  simp only [exec, execPcons, needF_some hX, needF_some hY, ok_bind, needCurve, hcv, orRaise_none, error_bind,
    finish_error]

/-- Settles O44. -/
theorem pconsValidates : Obligations.PconsValidates := by
  refine fun d a b s => ⟨rfl, fun X Y cv hX hY hcv => ⟨fun hp => ⟨fun hon => ?_, fun hoff => ?_⟩, fun q hq hne => ?_⟩,
    fun h => finish_absent_two h _, fun X Y hX hY hslot hnone => ?_⟩
  · rw [exec_pcons_of_curve d hX hY hcv hp, if_pos rfl, if_pos (onCurve_iff.2 hon)]
  · rw [exec_pcons_of_curve d hX hY hcv hp, if_pos rfl, if_neg (mt onCurve_iff.1 hoff)]
    rfl
  · rw [exec_pcons_of_curve d hX hY hcv hq, if_neg hne]
    rfl
  · exact exec_pcons_noCurve d hX hY (hslot ▸ curveOf_prog_none hnone)

/-- `PINF` (R184): all there is to check is whether the slot has a curve. -/
theorem exec_pinf (d : PIdx) (sel : Slot) (s : State) :
    exec (.pinf d sel) s =
      if sel = .secp ∨ s.curve0.isSome = true then .next (wroteP s d { c := sel, pt := .infinity })
      else .next (s.raise .absentValue) := by
  simp only [exec, execPinf, require_decide]
  split <;> rfl

/-- Settles O45. -/
theorem pinfConstructs : Obligations.PinfConstructs := by
  refine fun d sel s => ⟨by cases sel <;> rfl, fun h => (exec_pinf d sel s).trans (if_pos h), fun hsel hnone => ?_⟩
  exact (exec_pinf d sel s).trans (if_neg (by simp [hsel, hnone]))

/-! ### `PGETX`, `PGETY`, `PTEST` and `PEQ` -/

/-- A coordinate is written to a field register as it is (R185, R186). -/
theorem completed_writeF_toNat (s : State) (d : FIdx) (m : Slot) (v : Value) :
    (s.writeF d m v.toNat).completed = wroteF s d { m, num := v } := by
  simp [State.completed, State.writeF, wroteF]

/-- Settles O46. -/
theorem coordinatesAreRead : Obligations.CoordinatesAreRead := by
  refine fun d a s => ⟨rfl, rfl, fun A x y hA hpt => ?_, ?_⟩
  · simp only [exec, execPgetx, execPgety, needP_some hA, ok_bind, hpt, pure_eq_ok, finish_ok, completed_writeF_toNat,
      and_self]
  · rintro (hnone | ⟨A, hA, hpt⟩)
    · exact ⟨finish_absent hnone _, finish_absent hnone _⟩
    · simp only [exec, execPgetx, execPgety, needP_some hA, ok_bind, hpt, finish_error]
      exact ⟨rfl, rfl⟩

theorem Coords.isInfinity_iff {pt : Coords} : pt.isInfinity = true ↔ pt = .infinity := by
  cases pt <;> simp [Coords.isInfinity]

/-- Settles O47. -/
theorem ptestTestsForInfinity : Obligations.PtestTestsForInfinity := by
  refine fun a s => ⟨wordOf_eq_word _ _ _ _ _, fun A hA => ⟨A.pt.isInfinity, Coords.isInfinity_iff, ?_⟩,
    fun h => finish_absent h _⟩
  simp only [exec, execPtest, needP_some hA, ok_bind, pure_eq_ok, finish_ok]
  rfl

/-- Places are equal when both are infinite, or both finite with equal coordinates (R188). -/
theorem Coords.eq_iff {P Q : Coords} : P = Q ↔ (P = .infinity ∧ Q = .infinity) ∨
    ∃ x₁ y₁ x₂ y₂, P = .finite x₁ y₁ ∧ Q = .finite x₂ y₂ ∧ x₁ = x₂ ∧ y₁ = y₂ := by
  cases P <;> cases Q <;> simp

theorem samePoint_iff {s : State} {A B : PointRec} :
    samePoint s A B = true ↔ curveOf s A.c = curveOf s B.c ∧ A.pt = B.pt := by
  rw [samePoint, decide_eq_true_iff]

/-- Settles O48. -/
theorem peqComparesPoints : Obligations.PeqComparesPoints := by
  refine fun a b s => ⟨rfl, fun A B hA hB => ⟨samePoint s A B, ?_, ?_⟩, fun h => finish_absent_two h _⟩
  · rw [samePoint_iff, Coords.eq_iff]
  · simp only [exec, execPeq, needP_some hA, needP_some hB, ok_bind, pure_eq_ok, finish_ok]
    rfl

/-! ### The cases of the group law -/

/-- The group law on points of different curves (R182 case 1). -/
theorem padd_mismatch {s : State} {A B : PointRec} (h : curveOf s A.c ≠ curveOf s B.c) :
    padd s A B = .error .curveMismatch := by
  simp [padd, h]

section SameCurve

variable {s : State} {A B : PointRec} {cv : Curve} (hA : curveOf s A.c = some cv) (hB : curveOf s B.c = some cv)

include hA hB

/-- The identity on the left (R182 case 2). -/
theorem padd_infinity_left (ptA : A.pt = .infinity) : padd s A B = .ok B := by
  obtain ⟨-, h⟩ | ⟨h, -⟩ | ⟨_, _, _, _, h, -⟩ := padd_same_curve hA hB
  · exact h
  · exact absurd ptA h
  · rw [ptA] at h; cases h

/-- The identity on the right (R182 case 2). -/
theorem padd_infinity_right (ptA : A.pt ≠ .infinity) (ptB : B.pt = .infinity) : padd s A B = .ok A := by
  obtain ⟨h, -⟩ | ⟨-, -, h⟩ | ⟨_, _, _, _, -, h, -⟩ := padd_same_curve hA hB
  · exact absurd h ptA
  · exact h
  · rw [ptB] at h; cases h

theorem padd_finite {x₁ y₁ x₂ y₂ : Value} (ptA : A.pt = .finite x₁ y₁) (ptB : B.pt = .finite x₂ y₂) :
    padd s A B = (addFinite cv x₁.toNat y₁.toNat x₂.toNat y₂.toNat).map fun r => { c := A.c, pt := r } := by
  obtain ⟨h, -⟩ | ⟨-, h, -⟩ | ⟨_, _, _, _, h₁, h₂, h⟩ := padd_same_curve hA hB
  · rw [ptA] at h; cases h
  · rw [ptB] at h; cases h
  · cases ptA.symm.trans h₁
    cases ptB.symm.trans h₂
    exact h

end SameCurve

/-- Equal `x` and different `y` (R182 case 3). -/
theorem addFinite_vertical (cv : Curve) (x : Nat) {y₁ y₂ : Nat} (h : y₁ ≠ y₂) :
    addFinite cv x y₁ x y₂ = .ok .infinity := by
  simp [addFinite, h]

/-- Different `x` (R182 case 4). -/
theorem addFinite_chord (cv : Curve) {x₁ x₂ : Nat} (y₁ y₂ : Nat) (h : x₁ ≠ x₂) :
    addFinite cv x₁ y₁ x₂ y₂ = .ok (chord x₁ y₁ x₂ y₂ cv.p) := by
  simp [addFinite, h]

/-- A point of order two with itself (R182 case 5). -/
theorem addFinite_order_two (cv : Curve) (x : Nat) : addFinite cv x 0 x 0 = .ok .infinity := by
  simp [addFinite]

/-- Any other finite point with itself (R182 case 6). -/
theorem addFinite_self (cv : Curve) (x : Nat) {y : Nat} (h : y ≠ 0) : addFinite cv x y x y = tangent cv x y := by
  simp [addFinite, h]

theorem tangent_vanishing {cv : Curve} (x : Nat) {y : Nat} (h : 2 * y % cv.p = 0) :
    tangent cv x y = .error .divisionByZero := by
  rw [tangent, if_pos h]

theorem tangent_of_ne_zero {cv : Curve} (x : Nat) {y : Nat} (h : 2 * y % cv.p ≠ 0) :
    tangent cv x y =
      .ok (thirdPoint (fdiv ((3 * x * x + cv.a) % cv.p) (2 * y % cv.p) cv.p) x y x cv.p) := by
  rw [tangent, if_neg h]

/-! ### The slopes in the words of the rule -/

/-- The quotient of `fdiv` (R140) of the remainders of two integers is that of the integers. -/
theorem fdiv_emod {m n p : Nat} {a b : Int} (hp : 0 < p) (ha : (m : Int) = a % p) (hb : (n : Int) = b % p) :
    (fdiv m n p : Int) = a * b ^ (p - 2) % p := by
  rw [fdiv_eq _ _ _ hp]
  push_cast
  rw [ha, hb]
  exact ((Int.mod_modEq a p).mul ((Int.mod_modEq b p).pow _))

theorem fdiv_chordSlope (x₁ y₁ x₂ y₂ : Value) {p : Nat} (hp : 0 < p) :
    (fdiv (fsub y₂.toNat y₁.toNat p) (fsub x₂.toNat x₁.toNat p) p : Int) = chordSlope x₁ y₁ x₂ y₂ p :=
  fdiv_emod hp (modInt_cast _ p hp) (modInt_cast _ p hp)

theorem fdiv_tangentSlope (x y : Value) {cv : Curve} (hp : 0 < cv.p) :
    (fdiv ((3 * x.toNat * x.toNat + cv.a) % cv.p) (2 * y.toNat % cv.p) cv.p : Int) = tangentSlope x y cv :=
  fdiv_emod hp (by push_cast; rfl) (by push_cast; rfl)

theorem thirdPoint_thirdPointOf (sl : Nat) (x₁ y₁ x₂ : Value) {p : Nat} (hp : 0 < p) (hw : p ≤ 2 ^ 256) :
    ∃ x₃ y₃ : Value, thirdPointOf sl x₁ y₁ x₂ p x₃ y₃ ∧
      thirdPoint sl x₁.toNat y₁.toNat x₂.toNat p = .finite x₃ y₃ := by
  obtain ⟨x₃, y₃, h, -, -, hx, hy⟩ := thirdPoint_eq sl x₁.toNat y₁.toNat x₂.toNat p hp hw
  exact ⟨x₃, y₃, ⟨hx, hy⟩, h⟩

/-! ### `PADD` and `PDBL` -/

section Padd

variable {s : State} {a b : PIdx} {A B R : PointRec} (d : PIdx) (hA : s.P[a] = some A) (hB : s.P[b] = some B)

include hA hB

theorem exec_padd_of_ok (h : padd s A B = .ok R) : exec (.padd d a b) s = .next (wroteP s d R) := by
  simp only [exec, execPadd, needP_some hA, needP_some hB, ok_bind, h, pure_eq_ok, finish_ok]
  rfl

theorem exec_padd_of_error {e : ErrorKind} (h : padd s A B = .error e) :
    exec (.padd d a b) s = .next (s.raise e) := by
  simp only [exec, execPadd, needP_some hA, needP_some hB, ok_bind, h, error_bind, finish_error]

end Padd

section PaddFinite

variable {s : State} {a b : PIdx} {A B : PointRec} {cv : Curve} {x₁ y₁ x₂ y₂ : Value} (d : PIdx)
  (hA : s.P[a] = some A) (hB : s.P[b] = some B) (cA : curveOf s A.c = some cv) (cB : curveOf s B.c = some cv)
  (ptA : A.pt = .finite x₁ y₁) (ptB : B.pt = .finite x₂ y₂)

include hA hB cA cB ptA ptB

/-- A sum of finite points is written with the tag of the first (R182). -/
theorem exec_padd_finite {pt : Coords} (h : addFinite cv x₁.toNat y₁.toNat x₂.toNat y₂.toNat = .ok pt) :
    exec (.padd d a b) s = .next (wroteP s d { c := A.c, pt }) :=
  exec_padd_of_ok d hA hB (by rw [padd_finite cA cB ptA ptB, h]; rfl)

theorem exec_padd_finite_error {e : ErrorKind}
    (h : addFinite cv x₁.toNat y₁.toNat x₂.toNat y₂.toNat = .error e) : exec (.padd d a b) s = .next (s.raise e) :=
  exec_padd_of_error d hA hB (by rw [padd_finite cA cB ptA ptB, h]; rfl)

/-- `PADD` where the sum is the third point of a line of slope `sl` (R182 cases 4 and 6). -/
theorem exec_padd_thirdPoint (hp : 2 ≤ cv.p) {sl : Nat} {slope : Int} (hsl : (sl : Int) = slope)
    (h : addFinite cv x₁.toNat y₁.toNat x₂.toNat y₂.toNat =
      .ok (thirdPoint sl x₁.toNat y₁.toNat x₂.toNat cv.p)) :
    ∃ x₃ y₃ : Value, thirdPointOf slope x₁ y₁ x₂ cv.p x₃ y₃ ∧
      exec (.padd d a b) s = .next (wroteP s d { c := A.c, pt := .finite x₃ y₃ }) := by
  obtain ⟨x₃, y₃, hthird, heq⟩ := thirdPoint_thirdPointOf sl x₁ y₁ x₂ (Nat.zero_lt_of_lt hp) (curveOf_lt cA).le
  rw [heq] at h
  exact ⟨x₃, y₃, hsl ▸ hthird, exec_padd_finite d hA hB cA cB ptA ptB h⟩

end PaddFinite

/-- Settles O49: case by case, in the rule's order. -/
theorem paddFollowsSixCases : Obligations.PaddFollowsSixCases := by
  refine fun d a b s => ⟨rfl, fun h => finish_absent_two h _, fun A B hA hB => ⟨fun hne => ?_,
    fun cv cA cB hp => ⟨fun ptA => ?_, fun ptA ptB => ?_, fun x₁ y₁ x₂ y₂ ptA ptB => ⟨?_, ?_, ?_, ?_, ?_⟩⟩⟩⟩
  case refine_1 => exact exec_padd_of_error d hA hB (padd_mismatch hne)
  case refine_2 => exact exec_padd_of_ok d hA hB (padd_infinity_left cA cB ptA)
  case refine_3 => exact exec_padd_of_ok d hA hB (padd_infinity_right cA cB ptA ptB)
  case refine_4 =>
    rintro rfl hy
    exact exec_padd_finite d hA hB cA cB ptA ptB (addFinite_vertical cv _ (BitVec.toNat_ne.1 hy))
  case refine_5 =>
    intro hx _ _
    exact exec_padd_thirdPoint d hA hB cA cB ptA ptB hp (fdiv_chordSlope x₁ y₁ x₂ y₂ (Nat.zero_lt_of_lt hp))
      (addFinite_chord cv _ _ (BitVec.toNat_ne.1 hx))
  case refine_6 =>
    rintro rfl rfl rfl
    exact exec_padd_finite d hA hB cA cB ptA ptB (addFinite_order_two cv _)
  case refine_7 =>
    rintro rfl rfl hy hzero
    exact exec_padd_finite_error d hA hB cA cB ptA ptB
      ((addFinite_self cv _ (BitVec.toNat_ne.1 hy)).trans (tangent_vanishing _ hzero))
  case refine_8 =>
    rintro rfl rfl hy hne
    exact exec_padd_thirdPoint d hA hB cA cB ptA ptB hp (fdiv_tangentSlope x₁ y₁ (Nat.zero_lt_of_lt hp))
      ((addFinite_self cv _ (BitVec.toNat_ne.1 hy)).trans (tangent_of_ne_zero _ hne))

/-- `PDBL` adds its source to itself (R190). -/
theorem exec_pdbl_eq_padd (d a : PIdx) (s : State) : exec (.pdbl d a) s = exec (.padd d a a) s := by
  cases hA : s.P[a] with
  | none => simp only [exec, execPdbl, execPadd, needP_none hA, error_bind]
  | some A => simp only [exec, execPdbl, execPadd, needP_some hA, ok_bind]

/-- Settles O50: the cases of O49 for equal sources. -/
theorem pdblDoubles : Obligations.PdblDoubles := by
  intro d a s
  rw [exec_pdbl_eq_padd]
  obtain ⟨-, habsent, hcases⟩ := paddFollowsSixCases d a a s
  refine ⟨rfl, rfl, fun h => habsent (.inl h), fun A cv hA hcv hp => ?_⟩
  obtain ⟨-, hcurve⟩ := hcases A A hA hA
  obtain ⟨hinfinity, -, hfinite⟩ := hcurve cv hcv hcv hp
  refine ⟨hinfinity, fun x₁ y₁ hpt => ?_⟩
  obtain ⟨-, -, hordertwo, herror, htangent⟩ := hfinite x₁ y₁ x₁ y₁ hpt hpt
  exact ⟨hordertwo rfl rfl, herror rfl rfl, htangent rfl rfl⟩

/-! ### Closure -/

theorem onCurve_below {cv : Curve} {pt : Coords} (h : OnCurve cv pt) : pt.Below cv.p := by
  cases pt with
  | infinity => trivial
  | finite x y =>
    obtain ⟨hx, hy, -⟩ := h
    exact ⟨hx, hy⟩

/-- Over a prime modulus the group law raises nothing for points of one curve, but for the modulus 2 (R182 note
(iii)). -/
theorem padd_prime {s : State} {A B : PointRec} {cv : Curve} (cA : curveOf s A.c = some cv)
    (cB : curveOf s B.c = some cv) (hp : cv.p.Prime) (bA : A.pt.Below cv.p) :
    (cv.p = 2 ∧ padd s A B = .error .divisionByZero) ∨ ∃ R, padd s A B = .ok R := by
  obtain htwo | hodd := hp.eq_two_or_odd
  · obtain ⟨-, h⟩ | ⟨-, -, h⟩ | ⟨x₁, y₁, x₂, y₂, -, -, h⟩ := padd_same_curve cA cB
    · exact .inr ⟨_, h⟩
    · exact .inr ⟨_, h⟩
    · obtain hadd | ⟨x₃, y₃, hadd, -⟩ | ⟨hadd, -⟩ :=
        addFinite_cases cv x₁.toNat y₁.toNat x₂.toNat y₂.toNat hp.pos (curveOf_lt cA).le
      · exact .inr ⟨_, by rw [h, hadd]; rfl⟩
      · exact .inr ⟨_, by rw [h, hadd]; rfl⟩
      · exact .inl ⟨htwo, by rw [h, hadd]; rfl⟩
  · exact .inr (padd_odd cA cB hodd bA)

/-- Settles O54. -/
theorem paddStaysOnTheCurve : Obligations.PaddStaysOnTheCurve := by
  intro d a b s A B cv hA hB cA cB hp onA onB
  obtain ⟨htwo, herr⟩ | ⟨R, hR⟩ := padd_prime cA cB hp (onCurve_below onA)
  · exact .inl ⟨htwo, exec_padd_of_error d hA hB herr⟩
  · obtain ⟨cR, onR⟩ := PointOf.padd (cv := cv) ⟨cA, fun _ => onA⟩ ⟨cB, fun _ => onB⟩ hR
    exact .inr ⟨R, cR, onR hp, exec_padd_of_ok d hA hB hR⟩

/-! ### Commutativity -/

/-- Values below the modulus that are equal modulo it are equal. -/
theorem value_eq_of_cast_eq {v w : Value} {p : Nat} (hv : v.toNat < p) (hw : w.toNat < p)
    (h : (v.toNat : ZMod p) = w.toNat) : v = w := by
  rw [ZMod.natCast_eq_natCast_iff', Nat.mod_eq_of_lt hv, Nat.mod_eq_of_lt hw] at h
  exact BitVec.eq_of_toNat_eq h

/-- The two equations of R182 for the third point, modulo the modulus. -/
theorem thirdPoint_cast (sl x₁ y₁ x₂ : Nat) {p : Nat} (hp : 0 < p) (hw : p ≤ 2 ^ 256) :
    ∃ x₃ y₃ : Value, thirdPoint sl x₁ y₁ x₂ p = .finite x₃ y₃ ∧ x₃.toNat < p ∧ y₃.toNat < p ∧
      (x₃.toNat : ZMod p) = sl * sl - x₁ - x₂ ∧ (y₃.toNat : ZMod p) = sl * (x₁ - x₃.toNat) - y₁ := by
  obtain ⟨x₃, y₃, h, hx, hy, hx₃, hy₃⟩ := thirdPoint_eq sl x₁ y₁ x₂ p hp hw
  exact ⟨x₃, y₃, h, hx, hy, by simpa using natCast_of_eq_emod hx₃, by simpa using natCast_of_eq_emod hy₃⟩

/-- The third point of a line through two points is the same from either of them. -/
theorem thirdPoint_comm {sl x₁ y₁ x₂ y₂ p : Nat} (hp : 0 < p) (hw : p ≤ 2 ^ 256)
    (hsl : (sl : ZMod p) * (x₂ - x₁) = y₂ - y₁) : thirdPoint sl x₁ y₁ x₂ p = thirdPoint sl x₂ y₂ x₁ p := by
  obtain ⟨x₃, y₃, h, hx, hy, hx₃, hy₃⟩ := thirdPoint_cast sl x₁ y₁ x₂ hp hw
  obtain ⟨x₃', y₃', h', hx', hy', hx₃', hy₃'⟩ := thirdPoint_cast sl x₂ y₂ x₁ hp hw
  obtain rfl : x₃ = x₃' := value_eq_of_cast_eq hx hx' (by rw [hx₃, hx₃']; ring)
  obtain rfl : y₃ = y₃' := value_eq_of_cast_eq hy hy' (by rw [hy₃, hy₃']; linear_combination -hsl)
  rw [h, h']

/-- The slope of R182 case 4 is that of the line through the two points, for a prime modulus. -/
theorem chord_slope_cast {x₁ x₂ p : Nat} (y₁ y₂ : Nat) (hp : p.Prime) (hx₁ : x₁ < p) (hx₂ : x₂ < p) (hx : x₁ ≠ x₂) :
    (fdiv (fsub y₂ y₁ p) (fsub x₂ x₁ p) p : ZMod p) * (x₂ - x₁) = y₂ - y₁ := by
  rw [← fsub_cast x₂ x₁ hp.pos, ← fsub_cast y₂ y₁ hp.pos]
  exact fdiv_cast_mul _ hp (by rw [fsub_cast _ _ hp.pos]; exact sub_cast_ne_zero hx₁ hx₂ hx)

/-- The slope does not depend on the order of the points. -/
theorem chord_slope_comm {x₁ x₂ p : Nat} (y₁ y₂ : Nat) (hp : p.Prime) (hx₁ : x₁ < p) (hx₂ : x₂ < p) (hx : x₁ ≠ x₂) :
    fdiv (fsub y₂ y₁ p) (fsub x₂ x₁ p) p = fdiv (fsub y₁ y₂ p) (fsub x₁ x₂ p) p := by
  have := Fact.mk hp
  have h := chord_slope_cast y₁ y₂ hp hx₁ hx₂ hx
  have h' := chord_slope_cast y₂ y₁ hp hx₂ hx₁ hx.symm
  have hcast : (fdiv (fsub y₂ y₁ p) (fsub x₂ x₁ p) p : ZMod p) = fdiv (fsub y₁ y₂ p) (fsub x₁ x₂ p) p :=
    mul_right_cancel₀ (sub_cast_ne_zero hx₁ hx₂ hx) (by linear_combination h + h')
  rwa [ZMod.natCast_eq_natCast_iff', Nat.mod_eq_of_lt (fdiv_lt _ _ _ hp.pos), Nat.mod_eq_of_lt (fdiv_lt _ _ _ hp.pos)]
    at hcast

theorem chord_comm {x₁ x₂ p : Nat} (y₁ y₂ : Nat) (hp : p.Prime) (hw : p ≤ 2 ^ 256) (hx₁ : x₁ < p) (hx₂ : x₂ < p)
    (hx : x₁ ≠ x₂) : chord x₁ y₁ x₂ y₂ p = chord x₂ y₂ x₁ y₁ p := by
  rw [chord, chord, ← chord_slope_comm y₁ y₂ hp hx₁ hx₂ hx]
  exact thirdPoint_comm hp.pos hw (chord_slope_cast y₁ y₂ hp hx₁ hx₂ hx)

theorem addFinite_comm {cv : Curve} {x₁ x₂ : Nat} (y₁ y₂ : Nat) (hp : cv.p.Prime) (hw : cv.p ≤ 2 ^ 256)
    (hx₁ : x₁ < cv.p) (hx₂ : x₂ < cv.p) : addFinite cv x₁ y₁ x₂ y₂ = addFinite cv x₂ y₂ x₁ y₁ := by
  obtain rfl | hx := eq_or_ne x₁ x₂
  · obtain rfl | hy := eq_or_ne y₁ y₂
    · rfl
    · rw [addFinite_vertical cv x₁ hy, addFinite_vertical cv x₁ hy.symm]
  · rw [addFinite_chord cv y₁ y₂ hx, addFinite_chord cv y₂ y₁ hx.symm, chord_comm y₁ y₂ hp hw hx₁ hx₂ hx]

theorem pointRec_eq {A B : PointRec} (hc : A.c = B.c) (hpt : A.pt = B.pt) : A = B := by
  cases A; cases B; cases hc; cases hpt; rfl

/-- Infinity is the identity on the right for every point of its slot (R182 case 2). -/
theorem padd_identity {s : State} {A B : PointRec} {cv : Curve} (hslot : A.c = B.c) (cA : curveOf s A.c = some cv)
    (ptB : B.pt = .infinity) : padd s A B = .ok A := by
  have cB : curveOf s B.c = some cv := hslot ▸ cA
  by_cases ptA : A.pt = .infinity
  · rw [padd_infinity_left cA cB ptA, pointRec_eq hslot (ptA.trans ptB.symm)]
  · exact padd_infinity_right cA cB ptA ptB

theorem padd_comm {s : State} {A B : PointRec} {cv : Curve} (hslot : A.c = B.c) (cA : curveOf s A.c = some cv)
    (hp : cv.p.Prime) (bA : A.pt.Below cv.p) (bB : B.pt.Below cv.p) : padd s A B = padd s B A := by
  have cB : curveOf s B.c = some cv := hslot ▸ cA
  cases ptA : A.pt with
  | infinity => rw [padd_infinity_left cA cB ptA, padd_identity hslot.symm cB ptA]
  | finite x₁ y₁ =>
    cases ptB : B.pt with
    | infinity => rw [padd_infinity_left cB cA ptB, padd_identity hslot cA ptB]
    | finite x₂ y₂ =>
      rw [ptA] at bA
      rw [ptB] at bB
      rw [padd_finite cA cB ptA ptB, padd_finite cB cA ptB ptA, hslot,
        addFinite_comm _ _ hp (curveOf_lt cA).le bA.1 bB.1]

/-- Settles O55. -/
theorem paddCommutes : Obligations.PaddCommutes := by
  intro d a b s A B cv hA hB hslot cA hp onA onB
  have hcomm := padd_comm hslot cA hp (onCurve_below onA) (onCurve_below onB)
  cases hsum : padd s A B with
  | ok R => rw [exec_padd_of_ok d hA hB hsum, exec_padd_of_ok d hB hA (hcomm.symm.trans hsum)]
  | error e => rw [exec_padd_of_error d hA hB hsum, exec_padd_of_error d hB hA (hcomm.symm.trans hsum)]

/-! ### Identity and inverse -/

/-- Twice a non-zero number below the modulus vanishes only where it is the modulus. -/
theorem two_mul_eq_of_mod_eq_zero {y p : Nat} (hy : y < p) (hne : y ≠ 0) (h : 2 * y % p = 0) : 2 * y = p :=
  Nat.eq_of_dvd_of_lt_two_mul (by omega) (Nat.dvd_of_mod_eq_zero h) (by omega)

/-- Numbers with sum zero modulo `p` are different, but for zero and for half of `p`. -/
theorem ne_or_eq_zero_of_add_mod {y z p : Nat} (hy : y < p) (h : (y + z) % p = 0) (hhalf : 2 * y ≠ p) :
    y ≠ z ∨ (y = 0 ∧ z = 0) := by
  by_contra! hcon
  obtain ⟨rfl, hne⟩ := hcon
  exact hhalf (two_mul_eq_of_mod_eq_zero hy (fun h0 => hne h0 h0) (by rwa [two_mul]))

/-- A finite point and its negative: equal `x` and different `y`, or a point of order two (R182 cases 3 and 5). -/
theorem addFinite_neg (cv : Curve) (x : Nat) {y z : Nat} (hy : y < cv.p) (h : (y + z) % cv.p = 0)
    (hhalf : 2 * y ≠ cv.p) :
    addFinite cv x y x z = .ok .infinity ∧ addFinite cv x z x y = .ok .infinity := by
  obtain hne | ⟨rfl, rfl⟩ := ne_or_eq_zero_of_add_mod hy h hhalf
  · exact ⟨addFinite_vertical cv x hne, addFinite_vertical cv x hne.symm⟩
  · exact ⟨addFinite_order_two cv x, addFinite_order_two cv x⟩

/-- Settles O56. -/
theorem paddIdentityAndInverse : Obligations.PaddIdentityAndInverse := by
  intro d a b s A B cv hA hB hslot cA onA
  have cB : curveOf s B.c = some cv := hslot ▸ cA
  refine ⟨fun ptB => ?_, fun x y z ptA ptB _ hsum hhalf => ?_⟩
  · exact ⟨exec_padd_of_ok d hA hB (padd_identity hslot cA ptB),
      exec_padd_of_ok d hB hA (padd_infinity_left cB cA ptB)⟩
  · have hy : y.toNat < cv.p := by
      have hbelow := onCurve_below onA
      rw [ptA] at hbelow
      exact hbelow.2
    obtain ⟨hAB, hBA⟩ := addFinite_neg cv x.toNat hy hsum hhalf
    refine ⟨exec_padd_finite d hA hB cA cB ptA ptB hAB, ?_⟩
    rw [hslot]
    exact exec_padd_finite d hB hA cB cA ptB ptA hBA

end Sys2Proof.Machine
end

section
/-! # The point family: associativity

SUPPORT. The points of a non-singular curve over an odd prime as the points of Mathlib's Weierstrass curve over the
numbers modulo it, on which the group law of R182 is the addition of the group; associativity (R191) from that group. -/

namespace Sys2Proof.Machine

open Sys2Proof.Spec

/-- The curve `y² = x³ + a x + b` over the numbers modulo `p`. -/
def weierstrass (cv : Curve) : WeierstrassCurve.Affine (ZMod cv.p) :=
  { a₁ := 0, a₂ := 0, a₃ := 0, a₄ := cv.a, a₆ := cv.b }

/-- The place `pt`, with coordinates in range, is the point `P` of the curve over the numbers modulo `p`. -/
inductive Represents (cv : Curve) : Coords → (weierstrass cv).Point → Prop
  | infinity : Represents cv .infinity 0
  | finite {x y : Value} (h : (weierstrass cv).Nonsingular x.toNat y.toNat) (hx : x.toNat < cv.p)
      (hy : y.toNat < cv.p) : Represents cv (.finite x y) (.some _ _ h)

theorem weierstrass_equation_iff {cv : Curve} {x y : Nat} : (weierstrass cv).Equation x y ↔
    y * y % cv.p = (x * x * x + cv.a * x + cv.b) % cv.p := by
  rw [WeierstrassCurve.Affine.equation_iff, curve_equation_iff]
  simp only [weierstrass]
  ring_nf

theorem weierstrass_discriminant (cv : Curve) :
    (weierstrass cv).Δ = -(2 ^ 4 * (4 * cv.a ^ 3 + 27 * cv.b ^ 2 : Nat)) := by
  simp only [WeierstrassCurve.Δ, WeierstrassCurve.b₂, WeierstrassCurve.b₄, WeierstrassCurve.b₆, WeierstrassCurve.b₈,
    weierstrass]
  push_cast
  ring

/-- The condition of R191 is that the discriminant does not vanish, for an odd prime. -/
theorem weierstrass_discriminant_ne_zero {cv : Curve} (hp : cv.p.Prime) (hodd : cv.p % 2 = 1)
    (hns : (4 * cv.a ^ 3 + 27 * cv.b ^ 2) % cv.p ≠ 0) : (weierstrass cv).Δ ≠ 0 := by
  have := Fact.mk hp
  have htwo : (2 : ZMod cv.p) ≠ 0 := ZMod.prime_ne_zero _ 2 (by omega)
  rw [weierstrass_discriminant, neg_ne_zero]
  refine mul_ne_zero (pow_ne_zero 4 htwo) ?_
  rwa [Ne, ZMod.natCast_eq_zero_iff, Nat.dvd_iff_mod_eq_zero]

theorem exists_represents {cv : Curve} {pt : Coords} (hΔ : (weierstrass cv).Δ ≠ 0) (h : OnCurve cv pt) :
    ∃ P, Represents cv pt P := by
  cases pt with
  | infinity => exact ⟨0, .infinity⟩
  | finite x y =>
    obtain ⟨hx, hy, heq⟩ := h
    exact ⟨_, .finite ((WeierstrassCurve.Affine.equation_iff_nonsingular_of_Δ_ne_zero hΔ).1
      (weierstrass_equation_iff.2 heq)) hx hy⟩

/-- A point of the curve is represented by one place only. -/
theorem Represents.unique {cv : Curve} {pt pt' : Coords} {P : (weierstrass cv).Point} (h : Represents cv pt P)
    (h' : Represents cv pt' P) : pt = pt' := by
  generalize hQ : P = Q at h'
  cases h with
  | infinity => cases h' with
    | infinity => rfl
    | finite => cases hQ
  | finite _ hx hy => cases h' with
    | infinity => cases hQ
    | finite _ hx' hy' =>
      obtain ⟨hxx, hyy⟩ := WeierstrassCurve.Affine.Point.some.inj hQ
      rw [value_eq_of_cast_eq hx hx' hxx, value_eq_of_cast_eq hy hy' hyy]

theorem represents_of_cast {cv : Curve} {x y : Value} {X Y : ZMod cv.p} (h : (weierstrass cv).Nonsingular X Y)
    (hx : x.toNat < cv.p) (hy : y.toNat < cv.p) (hX : (x.toNat : ZMod cv.p) = X) (hY : (y.toNat : ZMod cv.p) = Y) :
    Represents cv (.finite x y) (.some _ _ h) := by
  subst hX hY
  exact .finite h hx hy

theorem weierstrass_negY (cv : Curve) (x y : ZMod cv.p) : (weierstrass cv).negY x y = -y := by
  simp [WeierstrassCurve.Affine.negY, weierstrass]

/-! ### The group law is the addition of the group -/

section Addition

variable {cv : Curve} [Fact cv.p.Prime]

/-- The slope of R182 case 6 is that of the tangent, for a prime modulus. -/
theorem tangent_slope_cast (x : Nat) {y : Nat} (h : 2 * y % cv.p ≠ 0) :
    (fdiv ((3 * x * x + cv.a) % cv.p) (2 * y % cv.p) cv.p : ZMod cv.p) * (2 * y) = 3 * x * x + cv.a := by
  have hne : ((2 * y % cv.p : Nat) : ZMod cv.p) ≠ 0 := by
    rwa [ZMod.natCast_mod, Ne, ZMod.natCast_eq_zero_iff, Nat.dvd_iff_mod_eq_zero]
  have hmul := fdiv_cast_mul ((3 * x * x + cv.a) % cv.p) Fact.out hne
  rw [ZMod.natCast_mod (2 * y), ZMod.natCast_mod (3 * x * x + cv.a)] at hmul
  exact_mod_cast hmul

variable {x₁ y₁ x₂ y₂ : Value} {h₁ : (weierstrass cv).Nonsingular x₁.toNat y₁.toNat}
  {h₂ : (weierstrass cv).Nonsingular x₂.toNat y₂.toNat}

/-- Two points with one `x` and different `y` are each other's negatives. -/
theorem add_eq_zero_of_vertical (hx : x₁ = x₂) (hy₁ : y₁.toNat < cv.p) (hy₂ : y₂.toNat < cv.p)
    (hy : y₁.toNat ≠ y₂.toNat) :
    (.some _ _ h₁ + .some _ _ h₂ : (weierstrass cv).Point) = 0 := by
  subst hx
  refine WeierstrassCurve.Affine.Point.add_of_Y_eq rfl ?_
  have hne : (y₁.toNat : ZMod cv.p) - y₂.toNat ≠ 0 := sub_cast_ne_zero hy₂ hy₁ hy.symm
  have e₁ := (curve_equation_iff cv _ _).1 (weierstrass_equation_iff.1 h₁.1)
  have e₂ := (curve_equation_iff cv _ _).1 (weierstrass_equation_iff.1 h₂.1)
  rw [weierstrass_negY]
  exact mul_left_cancel₀ hne (by linear_combination e₁ - e₂)

variable (hw : cv.p ≤ 2 ^ 256)

include hw

/-- The third point of a line with the slope of the group's addition is the sum. -/
theorem represents_thirdPoint {sl : Nat}
    (hxy : ¬((x₁.toNat : ZMod cv.p) = x₂.toNat ∧ (y₁.toNat : ZMod cv.p) = (weierstrass cv).negY x₂.toNat y₂.toNat))
    (hsl : (weierstrass cv).slope x₁.toNat x₂.toNat y₁.toNat y₂.toNat = sl) :
    Represents cv (thirdPoint sl x₁.toNat y₁.toNat x₂.toNat cv.p) (.some _ _ h₁ + .some _ _ h₂) := by
  obtain ⟨x₃, y₃, heq, hx, hy, hx₃, hy₃⟩ :=
    thirdPoint_cast sl x₁.toNat y₁.toNat x₂.toNat (Fact.out : cv.p.Prime).pos hw
  have haddX : (weierstrass cv).addX x₁.toNat x₂.toNat sl = x₃.toNat := by
    rw [hx₃, WeierstrassCurve.Affine.addX]
    simp only [weierstrass]
    ring
  rw [heq, WeierstrassCurve.Affine.Point.add_some hxy]
  refine represents_of_cast _ hx hy ?_ ?_
  · rw [hsl, haddX]
  · rw [hsl, WeierstrassCurve.Affine.addY, WeierstrassCurve.Affine.negAddY, weierstrass_negY, haddX, hy₃]
    ring

theorem represents_chord (hx₁ : x₁.toNat < cv.p) (hx₂ : x₂.toNat < cv.p) (hx : x₁.toNat ≠ x₂.toNat) :
    Represents cv (chord x₁.toNat y₁.toNat x₂.toNat y₂.toNat cv.p) (.some _ _ h₁ + .some _ _ h₂) := by
  have hne : (x₁.toNat : ZMod cv.p) - x₂.toNat ≠ 0 := sub_cast_ne_zero hx₂ hx₁ hx.symm
  refine represents_thirdPoint hw (fun h => hne (sub_eq_zero.2 h.1)) ?_
  rw [WeierstrassCurve.Affine.slope_of_X_ne (sub_ne_zero.1 hne), div_eq_iff hne]
  linear_combination chord_slope_cast y₁.toNat y₂.toNat Fact.out hx₁ hx₂ hx

theorem represents_tangent {R : Coords} (h : tangent cv x₁.toNat y₁.toNat = .ok R) :
    Represents cv R (.some _ _ h₁ + .some _ _ h₁) := by
  by_cases hzero : 2 * y₁.toNat % cv.p = 0
  · rw [tangent_vanishing _ hzero] at h; cases h
  · rw [tangent_of_ne_zero _ hzero] at h
    cases h
    have hsl := tangent_slope_cast x₁.toNat hzero
    have htwo : (2 * y₁.toNat : ZMod cv.p) ≠ 0 := by
      rw [← Nat.dvd_iff_mod_eq_zero, ← ZMod.natCast_eq_zero_iff] at hzero
      exact_mod_cast hzero
    have hY : (y₁.toNat : ZMod cv.p) ≠ (weierstrass cv).negY x₁.toNat y₁.toNat := by
      rw [weierstrass_negY]
      exact fun hneg => htwo (by linear_combination hneg)
    refine represents_thirdPoint hw (fun hxy => hY hxy.2) ?_
    rw [WeierstrassCurve.Affine.slope_of_Y_ne rfl hY, weierstrass_negY, sub_neg_eq_add, ← two_mul, div_eq_iff htwo, hsl]
    simp only [weierstrass]
    ring

/-- The finite cases of the group law are the group's addition (R182 cases 3 to 6). -/
theorem represents_addFinite (hx₁ : x₁.toNat < cv.p) (hy₁ : y₁.toNat < cv.p) (hx₂ : x₂.toNat < cv.p)
    (hy₂ : y₂.toNat < cv.p) {R : Coords} (h : addFinite cv x₁.toNat y₁.toNat x₂.toNat y₂.toNat = .ok R) :
    Represents cv R (.some _ _ h₁ + .some _ _ h₂) := by
  obtain rfl | hx := eq_or_ne x₁ x₂
  · obtain rfl | hy := eq_or_ne y₁ y₂
    · by_cases hzero : y₁.toNat = 0
      · rw [hzero, addFinite_order_two] at h
        cases h
        rw [WeierstrassCurve.Affine.Point.add_of_Y_eq rfl (by rw [weierstrass_negY, hzero, Nat.cast_zero, neg_zero])]
        exact .infinity
      · rw [addFinite_self cv _ hzero] at h
        exact represents_tangent hw h
    · have hy := BitVec.toNat_ne.1 hy
      rw [addFinite_vertical cv _ hy] at h
      cases h
      rw [add_eq_zero_of_vertical rfl hy₁ hy₂ hy]
      exact .infinity
  · have hx := BitVec.toNat_ne.1 hx
    rw [addFinite_chord cv _ _ hx] at h
    cases h
    exact represents_chord hw hx₁ hx₂ hx

end Addition

/-- The group law is the group's addition (R182). -/
theorem Represents.padd {s : State} {A B R : PointRec} {cv : Curve} [Fact cv.p.Prime] {P Q : (weierstrass cv).Point}
    (cA : curveOf s A.c = some cv) (cB : curveOf s B.c = some cv) (hA : Represents cv A.pt P)
    (hB : Represents cv B.pt Q) (h : padd s A B = .ok R) : Represents cv R.pt (P + Q) := by
  generalize ptA : A.pt = pA at hA
  generalize ptB : B.pt = pB at hB
  cases hA with
  | infinity =>
    rw [padd_infinity_left cA cB ptA] at h
    cases h
    rwa [zero_add, ptB]
  | finite hP hx₁ hy₁ =>
    cases hB with
    | infinity =>
      rw [padd_infinity_right cA cB (by simp [ptA]) ptB] at h
      cases h
      rw [add_zero, ptA]
      exact .finite hP hx₁ hy₁
    | finite hQ hx₂ hy₂ =>
      rw [padd_finite cA cB ptA ptB] at h
      cases hadd : addFinite cv _ _ _ _ with
      | error e => rw [hadd] at h; cases h
      | ok pt =>
        rw [hadd] at h
        cases h
        exact represents_addFinite (curveOf_lt cA).le hx₁ hy₁ hx₂ hy₂ hadd

/-! ### Associativity -/

/-- A point of the slot `c` that is the point `P` of the group. -/
def IsPoint (cv : Curve) (c : Slot) (P : (weierstrass cv).Point) (A : PointRec) : Prop :=
  A.c = c ∧ Represents cv A.pt P

theorem IsPoint.eq {cv : Curve} {c : Slot} {P : (weierstrass cv).Point} {A B : PointRec} (hA : IsPoint cv c P A)
    (hB : IsPoint cv c P B) : A = B :=
  pointRec_eq (hA.1.trans hB.1.symm) (hA.2.unique hB.2)

theorem Represents.below {cv : Curve} {pt : Coords} {P : (weierstrass cv).Point} (h : Represents cv pt P) :
    pt.Below cv.p := by
  cases h with
  | infinity => trivial
  | finite _ hx hy => exact ⟨hx, hy⟩

/-- Over an odd prime two points of a slot have a sum, which is that of the group (R182, R191). -/
theorem IsPoint.exists_padd {s : State} {cv : Curve} [Fact cv.p.Prime] {c : Slot} {P Q : (weierstrass cv).Point}
    {A B : PointRec} (hcv : curveOf s c = some cv) (hodd : cv.p % 2 = 1) (hA : IsPoint cv c P A)
    (hB : IsPoint cv c Q B) : ∃ R, Machine.padd s A B = .ok R ∧ IsPoint cv c (P + Q) R := by
  obtain ⟨rfl, rA⟩ := hA
  obtain ⟨cB, rB⟩ := hB
  have hcvB : curveOf s B.c = some cv := cB ▸ hcv
  obtain ⟨R, hR⟩ := padd_odd hcv hcvB hodd rA.below
  obtain ⟨-, -, hslot⟩ := padd_below hcv hcvB (Fact.out : cv.p.Prime).two_le rA.below rB.below hR
  exact ⟨R, hR, hslot.elim id fun h => h.trans cB, rA.padd hcv hcvB rB hR⟩

/-- Settles O57: both sums are the group's, whose addition is associative. -/
theorem paddAssociates : Obligations.PaddAssociates := by
  intro s A B C cv hAB hBC hcv hp hodd hns onA onB onC
  have := Fact.mk hp
  have hΔ := weierstrass_discriminant_ne_zero hp hodd hns
  obtain ⟨P, hP⟩ := exists_represents hΔ onA
  obtain ⟨Q, hQ⟩ := exists_represents hΔ onB
  obtain ⟨T, hT⟩ := exists_represents hΔ onC
  have isA : IsPoint cv A.c P A := ⟨rfl, hP⟩
  have isB : IsPoint cv A.c Q B := ⟨hAB.symm, hQ⟩
  have isC : IsPoint cv A.c T C := ⟨(hAB.trans hBC).symm, hT⟩
  obtain ⟨AB, hsumAB, isAB⟩ := isA.exists_padd hcv hodd isB
  obtain ⟨BC, hsumBC, isBC⟩ := isB.exists_padd hcv hodd isC
  obtain ⟨R, hR, isR⟩ := isAB.exists_padd hcv hodd isC
  obtain ⟨R', hR', isR'⟩ := isA.exists_padd hcv hodd isBC
  obtain rfl : R = R' := isR.eq (add_assoc P Q T ▸ isR')
  exact ⟨AB, BC, R, hsumAB, hsumBC, hR, hR'⟩

end Sys2Proof.Machine
end

section
/-! # The scalar family: `PMUL`

SUPPORT. The scalar loop counted by `bitlen` is the loop "while k > 0" (R220), what a run of it on one curve can answer
(R221), and the effect of `PMUL`. -/

namespace Sys2Proof.Machine

open Sys2Proof.Spec

/-! ### The counted loop is R220's -/

theorem bitlen_of_ne_zero {k : Nat} (hk : k ≠ 0) : bitlen k = bitlen (k / 2) + 1 := by
  rw [bitlen, if_neg hk, bitlen, Nat.log2_def]
  split <;> split <;> omega

/-- The loop body runs once more for every bit of `k`, so counting bits is testing `k > 0` (R220). -/
theorem smulWhile_eq_smulLoop (s : State) (k : Nat) (r c : PointRec) :
    smulWhile s k r c = smulLoop s (bitlen k) k r c := by
  induction k using Nat.strong_induction_on generalizing r c with
  | _ k ih =>
    rw [smulWhile]
    by_cases hk : k = 0
    · rw [dif_pos hk, hk]
      rfl
    · rw [dif_neg hk, bitlen_of_ne_zero hk]
      simp only [ih (k / 2) (Nat.div_lt_self (Nat.pos_of_ne_zero hk) Nat.one_lt_two)]
      rfl

/-- The scalar of `PMUL` (R221). -/
theorem scalarOf_eq_scalarFor (s : State) (A : PointRec) : scalarOf s A = scalarFor s A.c := by
  unfold scalarOf
  cases A.c <;> rfl

/-- The loop of R220 from infinity is `smul`. -/
theorem smulWhile_eq_smul (s : State) (A : PointRec) :
    smulWhile s (scalarOf s A) { c := A.c, pt := .infinity } A = smul s (scalarFor s A.c) A := by
  rw [smulWhile_eq_smulLoop, scalarOf_eq_scalarFor, smul]

section Pmul

variable {s : State} {a : PIdx} {A R : PointRec} (d : PIdx) (hA : s.P[a] = some A)

include hA

theorem exec_pmul_of_ok (h : smul s (scalarFor s A.c) A = .ok R) : exec (.pmul d a) s = .next (wroteP s d R) := by
  simp only [exec, execPmul, needP_some hA, ok_bind, h, pure_eq_ok, finish_ok]
  rfl

theorem exec_pmul_of_error {e : ErrorKind} (h : smul s (scalarFor s A.c) A = .error e) :
    exec (.pmul d a) s = .next (s.raise e) := by
  simp only [exec, execPmul, needP_some hA, ok_bind, h, error_bind, finish_error]

end Pmul

/-- Settles O51. -/
theorem pmulRunsTheLoop : Obligations.PmulRunsTheLoop := by
  refine fun d a s => ⟨wordOf_eq_word _ _ _ _ _, fun h => finish_absent h _,
    fun A hA => ⟨fun R hR => ?_, fun e he => ?_⟩⟩
  · exact exec_pmul_of_ok d hA ((smulWhile_eq_smul s A).symm.trans hR)
  · exact exec_pmul_of_error d hA ((smulWhile_eq_smul s A).symm.trans he)

/-! ### What the loop can answer on one curve -/

/-- A computation that gives a point of the curve `cv` or raises `DivisionByZeroError`. -/
def GivesPointOf (s : State) (cv : Curve) (x : Except ErrorKind PointRec) : Prop :=
  (∃ R, x = .ok R ∧ curveOf s R.c = some cv) ∨ x = .error .divisionByZero

theorem givesPointOf_ok {s : State} {cv : Curve} {R : PointRec} (h : curveOf s R.c = some cv) :
    GivesPointOf s cv (.ok R) := .inl ⟨R, rfl, h⟩

theorem GivesPointOf.bind {s : State} {cv : Curve} {x : Except ErrorKind PointRec}
    {f : PointRec → Except ErrorKind PointRec} (hx : GivesPointOf s cv x)
    (hf : ∀ R, curveOf s R.c = some cv → GivesPointOf s cv (f R)) : GivesPointOf s cv (x >>= f) := by
  obtain ⟨R, rfl, hR⟩ | rfl := hx
  · exact hf R hR
  · exact .inr rfl

/-- On two points of one curve the only error of the group law is case 6's (R182). -/
theorem givesPointOf_padd {s : State} {cv : Curve} {A B : PointRec} (hp : 0 < cv.p) (hA : curveOf s A.c = some cv)
    (hB : curveOf s B.c = some cv) : GivesPointOf s cv (padd s A B) := by
  obtain ⟨-, h⟩ | ⟨-, -, h⟩ | ⟨x₁, y₁, x₂, y₂, -, -, h⟩ := padd_same_curve hA hB
  · exact h ▸ givesPointOf_ok hB
  · exact h ▸ givesPointOf_ok hA
  · obtain hadd | ⟨x₃, y₃, hadd, -⟩ | ⟨hadd, -⟩ :=
      addFinite_cases cv x₁.toNat y₁.toNat x₂.toNat y₂.toNat hp (curveOf_lt hA).le
    · rw [h, hadd]
      exact givesPointOf_ok hA
    · rw [h, hadd]
      exact givesPointOf_ok hA
    · exact .inr (by rw [h, hadd]; rfl)

theorem givesPointOf_addIfSet {s : State} {cv : Curve} (hp : 0 < cv.p) (k : Nat) {r c : PointRec}
    (hr : curveOf s r.c = some cv) (hc : curveOf s c.c = some cv) : GivesPointOf s cv (addIfSet s k r c) := by
  unfold addIfSet
  split
  · exact givesPointOf_padd hp hr hc
  · exact givesPointOf_ok hr

/-- Every operand inside the loop carries the curve of the point it starts from (R221). -/
theorem givesPointOf_smulLoop {s : State} {cv : Curve} (hp : 0 < cv.p) (n : Nat) :
    ∀ (k : Nat) {r c : PointRec}, curveOf s r.c = some cv → curveOf s c.c = some cv →
      GivesPointOf s cv (smulLoop s n k r c) := by
  induction n with
  | zero => exact fun k r c hr _ => givesPointOf_ok hr
  | succ n ih =>
    exact fun k r c hr hc => (givesPointOf_addIfSet hp k hr hc).bind fun r' hr' =>
      (givesPointOf_padd hp hc hc).bind fun c' hc' => ih (k / 2) hr' hc'

/-- The coordinates of a valid point lie below its curve's modulus (R35 (e)). -/
theorem State.Inv.point_below {s : State} (hi : s.Inv) {a : PIdx} {A : PointRec} {cv : Curve} (hA : s.P[a] = some A)
    (hcv : curveOf s A.c = some cv) : A.pt.Below cv.p := by
  obtain ⟨-, p, hp, hbelow⟩ := hi.point hA
  rw [primeOf_of_curveOf hcv] at hp
  cases hp
  exact hbelow

/-- Settles O52. -/
theorem pmulCompletesForOddModulus : Obligations.PmulCompletesForOddModulus := by
  intro d a s A cv hi hA hcv
  have htwo : 2 ≤ cv.p := hi.two_le_prime (primeOf_of_curveOf hcv)
  have hgives : GivesPointOf s cv (smul s (scalarFor s A.c) A) :=
    givesPointOf_smulLoop (Nat.zero_lt_of_lt htwo) _ _ hcv hcv
  have hcases : (∃ R, curveOf s R.c = some cv ∧ exec (.pmul d a) s = .next (wroteP s d R)) ∨
      smul s (scalarFor s A.c) A = .error .divisionByZero :=
    hgives.imp (fun ⟨R, hR, cR⟩ => ⟨R, cR, exec_pmul_of_ok d hA hR⟩) id
  refine ⟨fun hodd => hcases.resolve_right fun herr => ?_, hcases.imp id (exec_pmul_of_error d hA)⟩
  obtain ⟨R, hR⟩ : ∃ R, smul s (scalarFor s A.c) A = .ok R :=
    smulLoop_odd htwo hodd _ _ { c := A.c, pt := .infinity } A hcv hcv trivial (hi.point_below hA hcv)
  rw [hR] at herr
  cases herr

/-! ### Multiplying by 2 -/

theorem scalarFor_two {s : State} (hK : s.K = 2) (c : Slot) : scalarFor s c = 2 := by
  cases c <;> simp [scalarFor, hK, nSecp]

/-- The two runs of the loop for `k = 2`: the first only doubles, the second adds the double to infinity and doubles
once more, which must raise nothing (R220, R222). -/
theorem smul_two {s : State} {A D E : PointRec} {cv : Curve} (cA : curveOf s A.c = some cv)
    (cD : curveOf s D.c = some cv) (hD : padd s A A = .ok D) (hE : padd s D D = .ok E) : smul s 2 A = .ok D := by
  have hlen : bitlen 2 = 2 := by decide
  have hadd : padd s { c := A.c, pt := .infinity } D = .ok D := padd_infinity_left cA cD rfl
  simp [smul, hlen, smulLoop, addIfSet, hD, hadd, hE]

/-- Settles O53. -/
theorem pmulByTwoIsPdbl : Obligations.PmulByTwoIsPdbl := by
  intro d a s A cv hi hA hcv hodd hK
  have htwo : 2 ≤ cv.p := hi.two_le_prime (primeOf_of_curveOf hcv)
  have hbelow := hi.point_below hA hcv
  obtain ⟨D, hD⟩ := padd_odd hcv hcv hodd hbelow
  obtain ⟨cD, belowD, -⟩ := padd_below hcv hcv htwo hbelow hbelow hD
  obtain ⟨E, hE⟩ := padd_odd cD cD hodd belowD
  have hsmul : smul s (scalarFor s A.c) A = .ok D := by rw [scalarFor_two hK, smul_two hcv cD hD hE]
  rw [exec_pmul_of_ok d hA hsmul, exec_pdbl_eq_padd, exec_padd_of_ok d hA hA hD]

end Sys2Proof.Machine
end

section
/-! # The secp256k1 family: `FRED`, `PLDG` and `KLDN`

SUPPORT. The effect of the three commands of 44_secp256k1.md on the constants of slot 1 (R240, R242, R244, R245). -/

namespace Sys2Proof.Machine

open Sys2Proof.Spec

/-- Settles O32: the remainder lies below the prime of slot 1, so the register holds it exactly. -/
theorem fredReduces : Obligations.FredReduces := by
  intro d s
  have hlt : (s.dinh.toNat * 2 ^ 256 + s.dinl.toNat) % pSecp < pSecp := Nat.mod_lt _ (by decide)
  obtain ⟨r, hr, hfinish⟩ := finish_writeF (s := s) (m := .secp) d rfl hlt
  refine ⟨wordOf_eq_word _ _ _ _ _, r, ?_, hfinish⟩
  rw [holdsMod, hr, pSecp]
  push_cast
  rfl

/-- The order of the generator word by word, the least significant first (R245). -/
theorem nSecp_words (i : Fin 8) : (BitVec.ofNat 256 nSecp).extractLsb' (32 * i) 32 =
    #v[0xD0364141#32, 0xBFD25E8C#32, 0xAF48A03B#32, 0xBAAEDCE6#32, 0xFFFFFFFE#32, 0xFFFFFFFF#32, 0xFFFFFFFF#32,
      0xFFFFFFFF#32][i] := by
  revert i
  decide

/-- Settles O31. -/
theorem kldnLoadsTheOrder : Obligations.KldnLoadsTheOrder :=
  ⟨rfl, fun _ => ⟨BitVec.ofNat 256 nSecp, rfl, nSecp_words 0, nSecp_words 1, nSecp_words 2, nSecp_words 3,
    nSecp_words 4, nSecp_words 5, nSecp_words 6, nSecp_words 7⟩⟩

/-- Settles O33: the generator lies on the curve of slot 1, whose coefficients are 0 and 7. -/
theorem pldgLoadsTheGenerator : Obligations.PldgLoadsTheGenerator := by
  intro d s
  obtain ⟨-, -, hcurve⟩ := generator_onCurve
  refine ⟨wordOf_eq_word _ _ _ _ _, BitVec.ofNat 256 gx, BitVec.ofNat 256 gy, rfl, rfl, rfl, ?_⟩
  simpa only [curveSecp, pSecp, Nat.zero_mul, Nat.add_zero] using hcurve

end Sys2Proof.Machine
end

section
/-! # The exceptions family: the lock-out by an uncleared error

SUPPORT. While an error is uncleared the host reaches the core's inputs only, and the core's turn finds nothing to do
(R264, R266, R270). -/

namespace Sys2Proof.Machine

/-- A property that one step over each good pending event establishes again, is met by a run over a list of them. -/
theorem run_over_events {Q : State → Prop} {good : Event → Bool}
    (hstep : ∀ s e rest, Q s → s.events = e :: rest → good e = true →
      ∃ t, step s = .next t ∧ t.events = rest ∧ Q t) :
    ∀ (evs : List Event) (s : State), Q s → s.events = evs → (∀ e ∈ evs, good e = true) →
      ∃ t, Host.Core.run core evs.length s = .next t ∧ Q t
  | [], s, hs, _, _ => ⟨s, rfl, hs⟩
  | e :: rest, s, hs, he, hgood => by
    obtain ⟨hhead, htail⟩ := List.forall_mem_cons.1 hgood
    obtain ⟨u, hu, hrest, hQ⟩ := hstep s e rest hs he hhead
    obtain ⟨t, hrun, ht⟩ := run_over_events hstep rest u hQ hrest htail
    have hcore : core.step s = .next u := hu
    exact ⟨t, by simpa only [List.length_cons, Host.Core.run, hcore] using hrun, ht⟩

/-- `s` with what the host can change while an error is uncleared taken from `v`: the three input registers, `DONE`,
`OVR`, the interrupt enables and the world outside. -/
def State.withInputsOf (s v : State) : State :=
  { s with
    K := v.K, dinl := v.dinl, dinh := v.dinh, done := v.done, ovr := v.ovr, ieDone := v.ieDone, ieErr := v.ieErr
    events := v.events, readLog := v.readLog }

theorem State.withInputsOf_trans (s u v : State) : (s.withInputsOf u).withInputsOf v = s.withInputsOf v := rfl

/-- While an error is uncleared a write that is neither `ERRCLR` nor `SRST` changes the inputs only: a command is
discarded (R67, R264), and `CTRL` keeps the error (R69). -/
theorem writePort_of_err {s : State} (herr : s.err = true) {w : PortWord} {d : Word}
    (hctrl : w = .ctrl → d.getLsbD 8 = false ∧ d.getLsbD 31 = false) :
    writePort s w d = s.withInputsOf (writePort s w d) := by
  cases w with
  | cmd => rw [writePort_cmd_lost (.inr herr)]; rfl
  | ctrl =>
    obtain ⟨h8, h31⟩ := hctrl rfl
    rw [writePort, writeCtrl_eq s d h31]
    simp only [h8, Bool.false_eq_true, if_false, State.withInputsOf]
  | dinl i | dinh i | k i => rw [writePort]; split <;> rfl
  | status | errcmd | dout _ | reserved => rfl

/-- A write that keeps an error meets a word of the map and is neither `ERRCLR` nor `SRST` (R69). -/
theorem portWord_of_keepsError {addr : Nat} {d : Word} (h : (Event.busWrite addr d).keepsError = true) :
    ∃ w, portWord addr = some w ∧ (w = .ctrl → d.getLsbD 8 = false ∧ d.getLsbD 31 = false) := by
  obtain ⟨hwin, hclear⟩ :
      inWindow addr = true ∧ (addr == 0x008 && (d.getLsbD 8 || d.getLsbD 31)) = false := by
    simpa only [Event.keepsError, Bool.and_eq_true, Bool.not_eq_true'] using h
  obtain ⟨w, hw⟩ := portWord_of_inWindow hwin
  refine ⟨w, hw, ?_⟩
  rintro rfl
  rw [portWord_eq_ctrl hw] at hclear
  exact Bool.or_eq_false_iff.1 hclear

/-- The turn of an idle core keeps all state (R270). -/
theorem complete_of_idle {s : State} (hidle : s.busy = false) : complete s = .next s := by
  simp [complete, hidle]

/-- One step over an event that keeps an error changes the inputs of an idle core only, while an error is uncleared
(R264). -/
theorem step_keepsError {s : State} {e : Event} {rest : List Event} (hidle : s.busy = false) (herr : s.err = true)
    (he : s.events = e :: rest) (hkeeps : e.keepsError = true) :
    ∃ v, step s = .next (s.withInputsOf v) ∧ v.events = rest := by
  cases e with
  | busRead addr =>
    obtain ⟨w, hw⟩ := portWord_of_inWindow hkeeps
    exact ⟨{ s with events := rest, readLog := readPort s w :: s.readLog }, step_busRead he hw, rfl⟩
  | busWrite addr d =>
    obtain ⟨w, hw, hctrl⟩ := portWord_of_keepsError hkeeps
    have hnot : ¬ (w = .ctrl ∧ d.getLsbD 31 = true) := fun ⟨h, h31⟩ =>
      Bool.eq_false_iff.1 (hctrl h).2 h31
    obtain ⟨-, -, -, -, -, -, -, hevents, -⟩ := writePort_frame { s with events := rest } w d hnot
    exact ⟨_, step_busWrite_eq he hw (writePort_of_err (s := { s with events := rest }) herr hctrl), hevents⟩
  | complete => exact ⟨{ s with events := rest }, (step_complete he).trans (complete_of_idle hidle), rfl⟩
  | reset => cases hkeeps

/-- Settles O23: from the state `s` on, every step over an event that keeps the error changes the inputs only. -/
theorem errorLocksOutCommands : Obligations.ErrorLocksOutCommands := by
  intro s evs hidle herr he hkeeps
  have hstep : ∀ u e rest, (∃ v, u = s.withInputsOf v) → u.events = e :: rest → e.keepsError = true →
      ∃ t, step u = .next t ∧ t.events = rest ∧ ∃ v, t = s.withInputsOf v := by
    rintro _ e rest ⟨v, rfl⟩ hu hke
    obtain ⟨v', hv', hrest⟩ := step_keepsError (s := s.withInputsOf v) hidle herr hu hke
    exact ⟨_, hv', hrest, v', State.withInputsOf_trans s v v'⟩
  obtain ⟨_, hrun, v, rfl⟩ := run_over_events hstep evs s ⟨s, rfl⟩ he hkeeps
  exact ⟨s.withInputsOf v, hrun, hidle, herr, rfl, rfl, rfl, rfl, rfl, rfl, rfl, rfl, rfl⟩

end Sys2Proof.Machine
end
